-- ==== Sys2Proof/Word.lean ====
section
/-! DEFINITION. The word types of the Chip8 CORE (00_scope.md section 6): plain bit vectors, so that the
library's lemmas apply to them. All values are unsigned (R170). -/

namespace Sys2Proof

/-- A memory byte, a general register, the immediate `kk` (R10, R40, R61). -/
abbrev Byte := BitVec 8

/-- An instruction word, `I`, `PC`, a return address (R12, R13, R15, R60). -/
abbrev Word := BitVec 16

/-- A register index, a row count, a selector nibble (R61). -/
abbrev Nibble := BitVec 4

/-- The immediate `nnn` (R61). -/
abbrev Addr12 := BitVec 12

end Sys2Proof
end

