-- ==== Sys2Proof/Syntax.lean ====
section
/-! DEFINITION. The 34 instructions (R78), one constructor per row of spec/opcode_table.json, in the table's order.
Operands have the width of their field (R61), so that no ill-formed operand can be written. The ignored low nibble of
categories 5 and 9 (R71) is no operand: assumption log 7. -/

namespace Sys2Proof

/-- One decoded instruction with its operand fields (R74). -/
inductive Instr where
  /-- CLS `00E0` (R120) -/
  | cls
  /-- RET `00EE` (R100) -/
  | ret
  /-- JP nnn `1nnn` (R101) -/
  | jp (nnn : Addr12)
  /-- CALL nnn `2nnn` (R102) -/
  | call (nnn : Addr12)
  /-- SE Vx, kk `3xkk` (R103) -/
  | seImm (x : Nibble) (kk : Byte)
  /-- SNE Vx, kk `4xkk` (R104) -/
  | sneImm (x : Nibble) (kk : Byte)
  /-- SE Vx, Vy `5xy0` (R105) -/
  | seReg (x y : Nibble)
  /-- LD Vx, kk `6xkk` (R110) -/
  | ldImm (x : Nibble) (kk : Byte)
  /-- ADD Vx, kk `7xkk` (R111) -/
  | addImm (x : Nibble) (kk : Byte)
  /-- LD Vx, Vy `8xy0` (R160) -/
  | ldReg (x y : Nibble)
  /-- OR Vx, Vy `8xy1` (R161) -/
  | orReg (x y : Nibble)
  /-- AND Vx, Vy `8xy2` (R162) -/
  | andReg (x y : Nibble)
  /-- XOR Vx, Vy `8xy3` (R163) -/
  | xorReg (x y : Nibble)
  /-- ADD Vx, Vy `8xy4` (R164) -/
  | addReg (x y : Nibble)
  /-- SUB Vx, Vy `8xy5` (R165) -/
  | sub (x y : Nibble)
  /-- SHR Vx, Vy `8xy6` (R166) -/
  | shr (x y : Nibble)
  /-- SUBN Vx, Vy `8xy7` (R167) -/
  | subn (x y : Nibble)
  /-- SHL Vx, Vy `8xyE` (R168) -/
  | shl (x y : Nibble)
  /-- SNE Vx, Vy `9xy0` (R106) -/
  | sneReg (x y : Nibble)
  /-- LD I, nnn `Annn` (R112) -/
  | ldI (nnn : Addr12)
  /-- JP V0, nnn `Bnnn` (R107) -/
  | jpV0 (nnn : Addr12)
  /-- RND Vx, kk `Cxkk` (R133) -/
  | rnd (x : Nibble) (kk : Byte)
  /-- DRW Vx, Vy, n `Dxyn` (R121) -/
  | drw (x y n : Nibble)
  /-- SKP Vx `Ex9E` (R130) -/
  | skp (x : Nibble)
  /-- SKNP Vx `ExA1` (R131) -/
  | sknp (x : Nibble)
  /-- LD Vx, DT `Fx07` (R154) -/
  | ldVxDt (x : Nibble)
  /-- LD Vx, K `Fx0A` (R132) -/
  | ldVxK (x : Nibble)
  /-- LD DT, Vx `Fx15` (R155) -/
  | ldDtVx (x : Nibble)
  /-- LD ST, Vx `Fx18` (R156) -/
  | ldStVx (x : Nibble)
  /-- ADD I, Vx `Fx1E` (R113) -/
  | addI (x : Nibble)
  /-- LD F, Vx `Fx29` (R114) -/
  | ldF (x : Nibble)
  /-- LD B, Vx `Fx33` (R140) -/
  | ldB (x : Nibble)
  /-- LD [I], Vx `Fx55`, the block store (R141) -/
  | storeRegs (x : Nibble)
  /-- LD Vx, [I] `Fx65`, the block load (R142) -/
  | loadRegs (x : Nibble)
  deriving DecidableEq, Repr

/-- Why bytes do not decode, by name. -/
inductive DecodeReject where
  /-- The word has no handler (R72). The payload is the word. -/
  | unimplemented (op : Word)
  /-- Fewer than the two bytes an instruction takes were given (R60); no step meets this, since fetch reads two bytes. -/
  | truncated
  deriving DecidableEq, Repr

end Sys2Proof
end

