-- ==== Sys2Proof/Decode.lean ====
section
/-! DEFINITION. The decoder (R60 to R74) and the encoder (R62, R78). Decoding depends on the word alone (R74). -/

namespace Sys2Proof

/-! ## Fields (R61) -/

/-- `cat`, `op[15:12]`. -/
def fieldCat (op : Word) : Nibble := op.extractLsb' 12 4

/-- `x`, `op[11:8]`. -/
def fieldX (op : Word) : Nibble := op.extractLsb' 8 4

/-- `y`, `op[7:4]`. -/
def fieldY (op : Word) : Nibble := op.extractLsb' 4 4

/-- `n`, `op[3:0]`. -/
def fieldN (op : Word) : Nibble := op.extractLsb' 0 4

/-- `kk`, `op[7:0]`. -/
def fieldKK (op : Word) : Byte := op.extractLsb' 0 8

/-- `nnn`, `op[11:0]`. -/
def fieldNNN (op : Word) : Addr12 := op.extractLsb' 0 12

/-! ## Dispatch, second level -/

/-- R67: category 0 is keyed by all of `nnn`. -/
def decodeCat0 (op : Word) : Option Instr :=
  match fieldNNN op with
  | 0x0E0#12 => some .cls
  | 0x0EE#12 => some .ret
  | _ => none

/-- R68: category 8 is keyed by the low nibble. -/
def decodeCat8 (op : Word) : Option Instr :=
  match fieldN op with
  | 0x0#4 => some (.ldReg (fieldX op) (fieldY op))
  | 0x1#4 => some (.orReg (fieldX op) (fieldY op))
  | 0x2#4 => some (.andReg (fieldX op) (fieldY op))
  | 0x3#4 => some (.xorReg (fieldX op) (fieldY op))
  | 0x4#4 => some (.addReg (fieldX op) (fieldY op))
  | 0x5#4 => some (.sub (fieldX op) (fieldY op))
  | 0x6#4 => some (.shr (fieldX op) (fieldY op))
  | 0x7#4 => some (.subn (fieldX op) (fieldY op))
  | 0xE#4 => some (.shl (fieldX op) (fieldY op))
  | _ => none

/-- R69: category 0xE is keyed by the low byte. -/
def decodeCatE (op : Word) : Option Instr :=
  match fieldKK op with
  | 0x9E#8 => some (.skp (fieldX op))
  | 0xA1#8 => some (.sknp (fieldX op))
  | _ => none

/-- R70: category 0xF is keyed by the low byte. -/
def decodeCatF (op : Word) : Option Instr :=
  match fieldKK op with
  | 0x07#8 => some (.ldVxDt (fieldX op))
  | 0x0A#8 => some (.ldVxK (fieldX op))
  | 0x15#8 => some (.ldDtVx (fieldX op))
  | 0x18#8 => some (.ldStVx (fieldX op))
  | 0x1E#8 => some (.addI (fieldX op))
  | 0x29#8 => some (.ldF (fieldX op))
  | 0x33#8 => some (.ldB (fieldX op))
  | 0x55#8 => some (.storeRegs (fieldX op))
  | 0x65#8 => some (.loadRegs (fieldX op))
  | _ => none

/-- R66, R74: dispatch by the top nibble; `none` is the verdict *unimplemented* (R72). -/
def decodeWord (op : Word) : Option Instr :=
  match fieldCat op with
  | 0x0#4 => decodeCat0 op
  | 0x1#4 => some (.jp (fieldNNN op))
  | 0x2#4 => some (.call (fieldNNN op))
  | 0x3#4 => some (.seImm (fieldX op) (fieldKK op))
  | 0x4#4 => some (.sneImm (fieldX op) (fieldKK op))
  | 0x5#4 => some (.seReg (fieldX op) (fieldY op))
  | 0x6#4 => some (.ldImm (fieldX op) (fieldKK op))
  | 0x7#4 => some (.addImm (fieldX op) (fieldKK op))
  | 0x8#4 => decodeCat8 op
  | 0x9#4 => some (.sneReg (fieldX op) (fieldY op))
  | 0xA#4 => some (.ldI (fieldNNN op))
  | 0xB#4 => some (.jpV0 (fieldNNN op))
  | 0xC#4 => some (.rnd (fieldX op) (fieldKK op))
  | 0xD#4 => some (.drw (fieldX op) (fieldY op) (fieldN op))
  | 0xE#4 => decodeCatE op
  | _ => decodeCatF op

/-! ## Bytes -/

/-- R43: the byte at the lower address is the high byte of the word. -/
def wordOfBytes (hi lo : Byte) : Word := hi ++ lo

/-- `op[15:8]`, stored at the lower address (R43). -/
def highByte (op : Word) : Byte := op.extractLsb' 8 8

/-- `op[7:0]`, stored at the higher address (R43). -/
def lowByte (op : Word) : Byte := op.extractLsb' 0 8

/-- The bytes of a word as the machine stores them (R43). -/
def bytesOfWord (op : Word) : List Byte := [highByte op, lowByte op]

/-- Decode the instruction at the head of a byte string and give back the rest, or reject by name (R60, R72). -/
def decodeBytes : List Byte → Except DecodeReject (Instr × List Byte)
  | hi :: lo :: rest =>
    match decodeWord (wordOfBytes hi lo) with
    | some i => .ok (i, rest)
    | none => .error (.unimplemented (wordOfBytes hi lo))
  | _ => .error .truncated

/-- The instruction whose bits, numbered as spec/opcode_table.json numbers them, are the low `nbits` bits of `w`. -/
def decodeTableWord (nbits w : Nat) : Option Instr :=
  match decodeBytes (bytesOfWord (BitVec.ofNat 16 (w % 2 ^ nbits))) with
  | .ok (i, _) => some i
  | .error _ => none

/-! ## The encoder (R62, R78) -/

/-- Format ADDR: `cat nnn`. -/
def encodeAddr (cat : Nibble) (nnn : Addr12) : Word := cat ++ nnn

/-- Formats REGIMM and REGSEL: `cat x kk`, with `kk` an immediate or a selector. -/
def encodeRegImm (cat x : Nibble) (kk : Byte) : Word := cat ++ x ++ kk

/-- Formats REGREG and DRAW: `cat x y n`, with `n` a selector or a row count. -/
def encodeRegReg (cat x y n : Nibble) : Word := cat ++ x ++ y ++ n

/-- The word of an instruction (R78); the ignored nibble of categories 5 and 9 is written 0, the canonical form (R71). -/
def encode : Instr → Word
  | .cls => 0x00E0
  | .ret => 0x00EE
  | .jp nnn => encodeAddr 0x1 nnn
  | .call nnn => encodeAddr 0x2 nnn
  | .seImm x kk => encodeRegImm 0x3 x kk
  | .sneImm x kk => encodeRegImm 0x4 x kk
  | .seReg x y => encodeRegReg 0x5 x y 0x0
  | .ldImm x kk => encodeRegImm 0x6 x kk
  | .addImm x kk => encodeRegImm 0x7 x kk
  | .ldReg x y => encodeRegReg 0x8 x y 0x0
  | .orReg x y => encodeRegReg 0x8 x y 0x1
  | .andReg x y => encodeRegReg 0x8 x y 0x2
  | .xorReg x y => encodeRegReg 0x8 x y 0x3
  | .addReg x y => encodeRegReg 0x8 x y 0x4
  | .sub x y => encodeRegReg 0x8 x y 0x5
  | .shr x y => encodeRegReg 0x8 x y 0x6
  | .subn x y => encodeRegReg 0x8 x y 0x7
  | .shl x y => encodeRegReg 0x8 x y 0xE
  | .sneReg x y => encodeRegReg 0x9 x y 0x0
  | .ldI nnn => encodeAddr 0xA nnn
  | .jpV0 nnn => encodeAddr 0xB nnn
  | .rnd x kk => encodeRegImm 0xC x kk
  | .drw x y n => encodeRegReg 0xD x y n
  | .skp x => encodeRegImm 0xE x 0x9E
  | .sknp x => encodeRegImm 0xE x 0xA1
  | .ldVxDt x => encodeRegImm 0xF x 0x07
  | .ldVxK x => encodeRegImm 0xF x 0x0A
  | .ldDtVx x => encodeRegImm 0xF x 0x15
  | .ldStVx x => encodeRegImm 0xF x 0x18
  | .addI x => encodeRegImm 0xF x 0x1E
  | .ldF x => encodeRegImm 0xF x 0x29
  | .ldB x => encodeRegImm 0xF x 0x33
  | .storeRegs x => encodeRegImm 0xF x 0x55
  | .loadRegs x => encodeRegImm 0xF x 0x65

end Sys2Proof
end

