-- ==== Sys2Proof/Config.lean ====
section
/-! DEFINITION. What an implementation fixes and what the spec leaves free. Every constant here is opaque: no proof can
see a value of it, so a theorem holds whatever it is. -/

namespace Sys2Proof

/-- One less than `Q`; any natural number (R5, D3: `Q` is OPEN, any integer at least 1). Assumption log 4. -/
opaque Config.quantaPred : Nat

/-- `Q`, the time quanta per timer unit (1/60 s) of the machine that `State.reset` describes (R5, R22). -/
def Config.quanta : Nat := Config.quantaPred + 1

/-- Free value: by how many quanta `now` grew before the `k`-th sampling (R22, R241, U2). Assumption log 3. -/
opaque Config.hostElapsed : Nat → Nat

/-- Free value: the key state the host presents at the `k`-th sampling (R23). Assumption log 3. -/
opaque Config.hostKeys : Nat → Word

/-- Free value: the random byte of the `k`-th sampling (R24, U1). Assumption log 3. -/
opaque Config.hostRnd : Nat → Byte

end Sys2Proof
end

