-- ==== Sys2Proof/Machine/State.lean ====
section
/-! DEFINITION. The state of the Chip8 CORE as plain data (10_state.md), the reasons a step could stop, and the state
after reset. INVENTORY.md, '## State', lists every field with its rule. -/

namespace Sys2Proof.Machine

/-- R20: the specialisation latched at reset. `A` is legacy, `B` is extended (R180). -/
inductive Variant where
  | A
  | B
  deriving DecidableEq, Repr

/-- R200: the value a step returns to the host. -/
inductive StepResult where
  /-- Code 0: the instruction executed. -/
  | ok
  /-- Code 1 (R201): dispatch found no handler for the word. -/
  | unimplemented (op : Word)
  /-- Code 2 (R202): RET with an empty call stack. -/
  | stackUnderflow (op : Word)
  /-- Code 3 (R203): CALL with a full call stack. -/
  | stackOverflow (op : Word)
  /-- Code 4 (R204): a data address above 0xFFF. -/
  | addressOutOfRange (op : Word)
  /-- Code 5 (R205): the two instruction bytes would not both lie in memory. -/
  | fetchOutOfRange (pc : Word)
  deriving DecidableEq, Repr

/-- R18, R150: a decaying counter is the time it was armed and the duration it was armed with, in quanta. -/
structure Timer where
  armedAt : Nat
  duration : Nat
  deriving DecidableEq, Repr

/-- What the host presents with one step request (R22 to R24). Time is given as the growth since the previous step, so
that `now` never decreases (R241). -/
structure HostInput where
  elapsed : Nat
  keys : Word
  rnd : Byte
  deriving DecidableEq, Repr

/-- R232: why reset can fail. -/
inductive LoadError where
  /-- The image is longer than 3584 bytes. -/
  | oversized
  deriving DecidableEq, Repr

/-- The machine's state. -/
structure State where
  /-- `V[0]` to `V[15]` (R10); `V[15]` is also the flag register `VF` (R11). -/
  v : Vector Byte 16
  /-- `I` (R12). -/
  index : Word
  /-- `PC` (R13). -/
  pc : Word
  /-- The call stack, most recent entry first (R15; assumption log 8). -/
  stack : List Word
  /-- The memory's cells that differ from their reset contents, by rising address (R16, R40). -/
  mem : List Host.Cell
  /-- `FB`: row `y`, whose bit `x` is the pixel at column `x` (R17; assumption log 8). -/
  fb : Vector (BitVec 64) 32
  /-- `DT` (R18). -/
  dt : Timer
  /-- `ST` (R19). -/
  st : Timer
  /-- `VARIANT`, constant during a run (R20). -/
  variant : Variant
  /-- `Q`, constant during a run (R5, R22; assumption log 4). -/
  quanta : Nat
  /-- The input `now` as last sampled (R22; assumption log 2). -/
  now : Nat
  /-- The input `keys` as last sampled (R23; assumption log 2). -/
  keys : Word
  /-- The input `rnd` as last sampled (R24; assumption log 2). -/
  rnd : Byte
  /-- The output `result` of the last step, latched (R25, R200; assumption log 1). -/
  result : StepResult
  /-- The inputs the host has scheduled for the coming steps (assumption log 3). -/
  script : List HostInput
  /-- How many steps have sampled their inputs: which free value comes next (assumption log 3). -/
  draws : Nat
  deriving DecidableEq, Repr

/-- The faults that stop the machine: none, so there is no constructor. The five signals of R200 are values a step
returns, after which the machine goes on (R206 to R208), and the step function is total (R73). Assumption log 10. -/
inductive Fault where
  deriving DecidableEq, Repr

/-- The refusals. -/
inductive Refusal where
  /-- Raised by `exec`'s arm of an instruction that has no meaning yet; safe, since it only stops. No arm raises it. -/
  | notModelled (mnemonic : String)
  deriving DecidableEq, Repr

/-- The state right after reset (R26 to R32, R230) with the empty image, the default strap and `now_reset` = 0
(assumption log 5): memory holds its reset contents, so nothing is listed. -/
def State.reset : State where
  v := Vector.replicate 16 0x00
  index := 0x0000
  pc := 0x0200
  stack := []
  mem := []
  fb := Vector.replicate 32 0
  dt := ⟨0, 0⟩
  st := ⟨0, 0⟩
  variant := .A
  quanta := Config.quanta
  now := 0
  keys := 0x0000
  rnd := 0x00
  result := .ok
  script := []
  draws := 0

end Sys2Proof.Machine
end

