-- ==== Sys2Proof/Machine/Memory.lean ====
section
/-! DEFINITION. The memory controller (20_memory.md): reset contents, one byte, and the bounds-checked accesses. -/

namespace Sys2Proof.Machine

/-- R42: the 80 bytes of the font table, glyph 0 first. -/
def fontData : List Byte :=
  [0xF0, 0x90, 0x90, 0x90, 0xF0, 0x20, 0x60, 0x20, 0x20, 0x70,
   0xF0, 0x10, 0xF0, 0x80, 0xF0, 0xF0, 0x10, 0xF0, 0x10, 0xF0] ++
  [0x90, 0x90, 0xF0, 0x10, 0x10, 0xF0, 0x80, 0xF0, 0x10, 0xF0,
   0xF0, 0x80, 0xF0, 0x90, 0xF0, 0xF0, 0x10, 0x20, 0x40, 0x40] ++
  [0xF0, 0x90, 0xF0, 0x90, 0xF0, 0xF0, 0x90, 0xF0, 0x10, 0xF0,
   0xF0, 0x90, 0xF0, 0x90, 0x90, 0xE0, 0x90, 0xE0, 0x90, 0xE0] ++
  [0xF0, 0x80, 0x80, 0x80, 0xF0, 0xE0, 0x90, 0x90, 0x90, 0xE0,
   0xF0, 0x80, 0xF0, 0x80, 0xF0, 0xF0, 0x80, 0xF0, 0x80, 0x80]

/-- R41: the first address of the font table. -/
def fontBase : Nat := 0x050

/-- R41: the address the program image is loaded at. -/
def progBase : Nat := 0x200

/-- What an address that is not listed reads as: its reset contents with the empty image (R31). -/
def unlisted (a : Nat) : Byte :=
  if fontBase ≤ a then fontData.getD (a - fontBase) 0x00 else 0x00

/-- `mem[a]`. -/
def readByte (m : List Host.Cell) (a : Nat) : Byte :=
  match m with
  | [] => unlisted a
  | (k, b) :: rest => if a = k then b else readByte rest a

/-- Put a cell at its place in the rising order. -/
def insertCell (m : List Host.Cell) (a : Nat) (b : Byte) : List Host.Cell :=
  match m with
  | [] => [(a, b)]
  | (k, c) :: rest => if a < k then (a, b) :: (k, c) :: rest else (k, c) :: insertCell rest a b

/-- `mem[a] <- b`: the cell at `a` goes, and comes back only if `b` is not what `a` reads as unlisted. -/
def writeByte (m : List Host.Cell) (a : Nat) (b : Byte) : List Host.Cell :=
  let others := m.filter (fun c => c.1 != a)
  if b = unlisted a then others else insertCell others a b

/-- Bytes at ascending addresses. -/
def readBytes (m : List Host.Cell) (a : Nat) : Nat → List Byte
  | 0 => []
  | n + 1 => readByte m a :: readBytes m (a + 1) n

/-- Bytes written at ascending addresses (R45). -/
def writeBytes (m : List Host.Cell) (a : Nat) : List Byte → List Host.Cell
  | [] => m
  | b :: bs => writeBytes (writeByte m a b) (a + 1) bs

/-- R44, R45: `n` bytes at `a` lie in memory; no wrap, and an empty range always does. -/
def inRange (a n : Nat) : Bool := decide (n = 0 ∨ a + n - 1 ≤ 0xFFF)

/-- R44: `MemRead(a, n)`; `none` where AddressOutOfRange is raised. -/
def memRead (m : List Host.Cell) (a n : Nat) : Option (List Byte) :=
  if inRange a n then some (readBytes m a n) else none

/-- R45: `MemWrite(a, n, bs)` with `n` the number of bytes; `none` where AddressOutOfRange is raised. -/
def memWrite (m : List Host.Cell) (a : Nat) (bs : List Byte) : Option (List Host.Cell) :=
  if inRange a bs.length then some (writeBytes m a bs) else none

/-- The canonical form: addresses strictly rising, inside memory, and no cell that an unlisted address reads as. -/
abbrev Memory.wf (m : List Host.Cell) : Prop :=
  m.Pairwise (fun c d => c.1 < d.1) ∧ ∀ c ∈ m, c.1 ≤ 0xFFF ∧ c.2 ≠ unlisted c.1

end Sys2Proof.Machine
end

