-- ==== Sys2Proof/Machine/Ops.lean ====
section
/-! DEFINITION. The named operations every meaning is written with: registers, program counter, call stack, the
sampling of the inputs, fetch, how an instruction ends, and the raising of a signal. -/

namespace Sys2Proof.Machine

/-! ## Registers -/

/-- The index of `VF` (R11). -/
def vfIndex : Nibble := 0xF

/-- `V[x]` (R10): no register is hard-wired. -/
def State.reg (s : State) (x : Nibble) : Byte := s.v[x.toNat]'x.isLt

/-- `V[x] <- b` (R10). -/
def State.setReg (s : State) (x : Nibble) (b : Byte) : State := { s with v := s.v.set x.toNat b x.isLt }

/-- `V[k], V[k+1], … <- bs`, in ascending order, for as long as there are registers (R142). -/
def setRegsFrom (v : Vector Byte 16) (k : Nat) : List Byte → Vector Byte 16
  | [] => v
  | b :: bs => setRegsFrom (v.setIfInBounds k b) (k + 1) bs

/-! ## Program counter -/

/-- R65: `PC <- (PC + 2) mod 65536`. -/
def State.advance (s : State) : State := { s with pc := s.pc + 2 }

/-- A skip: `PC` advances by 2 more when the condition holds (R103). -/
def State.skipIf (s : State) (c : Bool) : State := { s with pc := if c then s.pc + 2 else s.pc }

/-- R132: `PC <- (PC - 2) mod 65536`, back to the instruction's own address. -/
def State.rewind (s : State) : State := { s with pc := s.pc - 2 }

/-- `PC <- target`. -/
def State.jump (s : State) (target : Word) : State := { s with pc := target }

/-! ## Call stack (R15) -/

/-- `STACK_DEPTH` (R5, R15). -/
def stackDepth : Nat := 16

/-- `Push(v)`; `none` where StackOverflow is raised. -/
def State.push (s : State) (w : Word) : Option State :=
  if stackDepth ≤ s.stack.length then none else some { s with stack := w :: s.stack }

/-- `Pop()`; `none` where StackUnderflow is raised. -/
def State.pop (s : State) : Option (Word × State) :=
  match s.stack with
  | [] => none
  | w :: rest => some (w, { s with stack := rest })

/-! ## How an instruction ends -/

/-- The instruction executed: the step returns `Ok` (R79, R200). -/
def complete (s : State) : Host.Outcome State Fault Refusal := .next { s with result := .ok }

/-- TAKING AN EXCEPTION (R206, R207): the step returns the signal to the host and nothing else happens. There is no
vector, no saved register and no mode to change. There is no return from an exception either: the next step simply
proceeds (R208). The state given is the one after the advance for codes 1 to 4, the one before it for code 5. -/
def raise (r : StepResult) (s : State) : Host.Outcome State Fault Refusal := .next { s with result := r }

/-- R200: the numeric code of a result. -/
def StepResult.code : StepResult → Nat
  | .ok => 0
  | .unimplemented _ => 1
  | .stackUnderflow _ => 2
  | .stackOverflow _ => 3
  | .addressOutOfRange _ => 4
  | .fetchOutOfRange _ => 5

/-! ## The start of a step -/

/-- What the host presents with the next step: the head of its schedule, else free values (R22 to R24, R240). -/
def State.nextInput (s : State) : HostInput :=
  match s.script with
  | h :: _ => h
  | [] => ⟨Config.hostElapsed s.draws, Config.hostKeys s.draws, Config.hostRnd s.draws⟩

/-- R64: the step first samples its inputs; `now` never decreases (R241). -/
def State.sample (s : State) : State :=
  { s with
    now := s.now + s.nextInput.elapsed
    keys := s.nextInput.keys
    rnd := s.nextInput.rnd
    script := s.script.tail
    draws := s.draws + 1 }

/-- R64: the two bytes at `PC`, high byte first; `none` where FetchOutOfRange is raised (R205). -/
def State.fetch (s : State) : Option Word :=
  if s.pc.toNat + 1 ≤ 0xFFF then some (wordOfBytes (readByte s.mem s.pc.toNat) (readByte s.mem (s.pc.toNat + 1)))
  else none

/-- Memory with a word stored at an address in the machine's byte order, where both bytes lie in memory. -/
def storeWordAt (m : List Host.Cell) (a : Nat) (op : Word) : List Host.Cell :=
  (memWrite m a (bytesOfWord op)).getD m

end Sys2Proof.Machine
end

