-- ==== Sys2Proof/Machine/Operands.lean ====
section
/-! DEFINITION. The operand forms (R63) beyond a plain register or immediate: zero extension, the shift's source, the
offset jump's register, the font address, the decimal digits, the keys, and the block transfer's index advance. -/

namespace Sys2Proof.Machine

/-- `zext_16(nnn)` (R63). -/
def zext16 (nnn : Addr12) : Word := nnn.setWidth 16

/-- The shifts' source: `V[y]` under Variant A, `V[x]` under Variant B (R166, R168, R182). -/
def shiftSource (s : State) (x y : Nibble) : Byte :=
  match s.variant with
  | .A => s.reg y
  | .B => s.reg x

/-- The offset jump's register: `V[0]` under Variant A, `V[nnn[11:8]]` under Variant B (R107, R182). -/
def jumpOffset (s : State) (nnn : Addr12) : Byte :=
  match s.variant with
  | .A => s.reg 0x0
  | .B => s.reg (nnn.extractLsb' 8 4)

/-- R114: the address of a glyph, the whole 8-bit value used. -/
def glyphAddress (b : Byte) : Word := BitVec.ofNat 16 (fontBase + 5 * b.toNat)

/-- R140: hundreds, tens, ones. -/
def decimalDigits (b : Byte) : List Byte :=
  [BitVec.ofNat 8 (b.toNat / 100), BitVec.ofNat 8 (b.toNat / 10 % 10), BitVec.ofNat 8 (b.toNat % 10)]

/-- The registers `V[0]` to `V[x]`, ascending: what the block store stores (R141). -/
def regsUpTo (s : State) (x : Nibble) : List Byte := s.v.toList.take (x.toNat + 1)

/-- `I` after a block transfer: advanced by `x + 1` under Variant A, unchanged under Variant B (R141, R142). -/
def indexAfterBlock (s : State) (x : Nibble) : Word :=
  match s.variant with
  | .A => s.index + BitVec.ofNat 16 (x.toNat + 1)
  | .B => s.index

/-- R134: `KeyHeld(b)`: a value above 0xF names no key and is not held. -/
def keyHeld (keys : Word) (b : Byte) : Bool := decide (b.toNat ≤ 0xF) && keys.getLsbD b.toNat

/-- R135: `KeyPick(keys)`, the lowest-numbered held key; `none` when no key is held. -/
def keyPick (keys : Word) : Option Byte :=
  ((List.range 16).find? (fun k => keys.getLsbD k)).map (BitVec.ofNat 8)

end Sys2Proof.Machine
end

