-- ==== Sys2Proof/Machine/Flags.lean ====
section
/-! DEFINITION. The flag computations (R11) and the order of the result and flag writes (R169). -/

namespace Sys2Proof.Machine

/-- A flag is always exactly 0 or 1 (R11). -/
def flagByte (c : Bool) : Byte := if c then 0x01 else 0x00

/-- R164: carry out of the 8-bit sum. -/
def carryFlag (a b : Byte) : Byte := flagByte (decide (a.toNat + b.toNat > 255))

/-- R165, R167: 1 iff no borrow, that is minuend at least subtrahend. -/
def noBorrowFlag (minuend subtrahend : Byte) : Byte := flagByte (decide (minuend.toNat ≥ subtrahend.toNat))

/-- R166: the bit a right shift shifts out. -/
def shiftedOutRight (b : Byte) : Byte := flagByte (b.getLsbD 0)

/-- R168: the bit a left shift shifts out. -/
def shiftedOutLeft (b : Byte) : Byte := flagByte (b.getLsbD 7)

/-- R113: 1 iff the exact sum exceeds 0xFFF. -/
def indexOverflowFlag (i : Word) (a : Byte) : Byte := flagByte (decide (i.toNat + a.toNat > 0xFFF))

/-- R169: the result is written to `V[x]` first, the flag to `VF` last. -/
def writeResultThenFlag (s : State) (x : Nibble) (result flag : Byte) : State :=
  (s.setReg x result).setReg vfIndex flag

/-- R161 to R163: the result is stored; under Variant B `VF` is then forced to 0, under Variant A it is left alone. -/
def writeLogicResult (s : State) (x : Nibble) (result : Byte) : State :=
  match s.variant with
  | .A => s.setReg x result
  | .B => writeResultThenFlag s x result 0x00

end Sys2Proof.Machine
end

