-- ==== Sys2Proof/Machine/Alu.lean ====
section
/-! DEFINITION. Arithmetic and logic instructions, category 0x8 (46_alu.md). Operands are read first, the result is
written next and the flag last (R169). -/

namespace Sys2Proof.Machine

/-- R160 LD Vx, Vy. -/
def execLdReg (x y : Nibble) (s : State) : Host.Outcome State Fault Refusal := complete (s.setReg x (s.reg y))

/-- R161 OR Vx, Vy. -/
def execOr (x y : Nibble) (s : State) : Host.Outcome State Fault Refusal :=
  complete (writeLogicResult s x (s.reg x ||| s.reg y))

/-- R162 AND Vx, Vy. -/
def execAnd (x y : Nibble) (s : State) : Host.Outcome State Fault Refusal :=
  complete (writeLogicResult s x (s.reg x &&& s.reg y))

/-- R163 XOR Vx, Vy. -/
def execXor (x y : Nibble) (s : State) : Host.Outcome State Fault Refusal :=
  complete (writeLogicResult s x (s.reg x ^^^ s.reg y))

/-- R164 ADD Vx, Vy. -/
def execAddReg (x y : Nibble) (s : State) : Host.Outcome State Fault Refusal :=
  complete (writeResultThenFlag s x (s.reg x + s.reg y) (carryFlag (s.reg x) (s.reg y)))

/-- R165 SUB Vx, Vy. -/
def execSub (x y : Nibble) (s : State) : Host.Outcome State Fault Refusal :=
  complete (writeResultThenFlag s x (s.reg x - s.reg y) (noBorrowFlag (s.reg x) (s.reg y)))

/-- R166 SHR Vx, Vy. -/
def execShr (x y : Nibble) (s : State) : Host.Outcome State Fault Refusal :=
  complete (writeResultThenFlag s x (shiftSource s x y >>> 1) (shiftedOutRight (shiftSource s x y)))

/-- R167 SUBN Vx, Vy. -/
def execSubn (x y : Nibble) (s : State) : Host.Outcome State Fault Refusal :=
  complete (writeResultThenFlag s x (s.reg y - s.reg x) (noBorrowFlag (s.reg y) (s.reg x)))

/-- R168 SHL Vx, Vy. -/
def execShl (x y : Nibble) (s : State) : Host.Outcome State Fault Refusal :=
  complete (writeResultThenFlag s x (shiftSource s x y <<< 1) (shiftedOutLeft (shiftSource s x y)))

end Sys2Proof.Machine
end

