-- ==== Sys2Proof/Machine/ControlFlow.lean ====
section
/-! DEFINITION. Control-transfer instructions (40_control_flow.md). `PC` is already advanced when a meaning starts (R65). -/

namespace Sys2Proof.Machine

/-- R100 RET. -/
def execRet (s : State) : Host.Outcome State Fault Refusal :=
  match s.pop with
  | none => raise (.stackUnderflow (encode .ret)) s
  | some (target, s') => complete (s'.jump target)

/-- R101 JP nnn. -/
def execJp (nnn : Addr12) (s : State) : Host.Outcome State Fault Refusal := complete (s.jump (zext16 nnn))

/-- R102 CALL nnn: the pushed `PC` is the advanced one. -/
def execCall (nnn : Addr12) (s : State) : Host.Outcome State Fault Refusal :=
  match s.push s.pc with
  | none => raise (.stackOverflow (encode (.call nnn))) s
  | some s' => complete (s'.jump (zext16 nnn))

/-- R103 SE Vx, kk. -/
def execSeImm (x : Nibble) (kk : Byte) (s : State) : Host.Outcome State Fault Refusal :=
  complete (s.skipIf (s.reg x == kk))

/-- R104 SNE Vx, kk. -/
def execSneImm (x : Nibble) (kk : Byte) (s : State) : Host.Outcome State Fault Refusal :=
  complete (s.skipIf (s.reg x != kk))

/-- R105 SE Vx, Vy. -/
def execSeReg (x y : Nibble) (s : State) : Host.Outcome State Fault Refusal :=
  complete (s.skipIf (s.reg x == s.reg y))

/-- R106 SNE Vx, Vy. -/
def execSneReg (x y : Nibble) (s : State) : Host.Outcome State Fault Refusal :=
  complete (s.skipIf (s.reg x != s.reg y))

/-- R107 JP V0, nnn: the sum is not masked to 12 bits. -/
def execJpV0 (nnn : Addr12) (s : State) : Host.Outcome State Fault Refusal :=
  complete (s.jump (zext16 nnn + (jumpOffset s nnn).setWidth 16))

end Sys2Proof.Machine
end

