-- ==== Sys2Proof/Machine/Display.lean ====
section
/-! DEFINITION. The display block and its instructions (42_display.md), and the snapshot output. -/

namespace Sys2Proof.Machine

/-! ## The display block -/

/-- `FB[y][x]`; a pixel outside the grid is never lit (R17). -/
def pixel (fb : Vector (BitVec 64) 32) (y x : Nat) : Bool := (fb[y]?.getD 0).getLsbD x

/-- `FB[y][x] <- FB[y][x] ^ 1` (R123). -/
def togglePixel (fb : Vector (BitVec 64) 32) (y x : Nat) : Vector (BitVec 64) 32 :=
  fb.setIfInBounds y ((fb[y]?.getD 0) ^^^ BitVec.twoPow 64 x)

/-- R122: every pixel unlit. -/
def clearDisplay : Vector (BitVec 64) 32 := Vector.replicate 32 0

/-- A framebuffer being drawn on, and the collision seen so far (R123, R124). -/
structure Drawing where
  fb : Vector (BitVec 64) 32
  collision : Bool
  deriving DecidableEq, Repr

/-- The inner step of R123: a 1-bit toggles its pixel, unless it is clipped (R125). -/
def plot (d : Drawing) (py px : Nat) (bit : Bool) : Drawing :=
  if py ≤ 31 ∧ px ≤ 63 ∧ bit = true then
    { fb := togglePixel d.fb py px, collision := d.collision || pixel d.fb py px }
  else d

/-- R123: the 8 bits of a row, bit 7 leftmost, columns `c`, `c + 1`, … of the sprite. -/
def drawBits (d : Drawing) (py ox : Nat) (row : Byte) : List Nat → Drawing
  | [] => d
  | c :: cs => drawBits (plot d py (ox + c) (row.getLsbD (7 - c))) py ox row cs

/-- R123: the rows, one byte per row, top to bottom. -/
def drawRows (d : Drawing) (py ox : Nat) : List Byte → Drawing
  | [] => d
  | row :: rows => drawRows (drawBits d py ox row [0, 1, 2, 3, 4, 5, 6, 7]) (py + 1) ox rows

/-- R123: `Display.drawSprite(ox, oy, rows)`. -/
def drawSprite (fb : Vector (BitVec 64) 32) (ox oy : Nat) (rows : List Byte) : Drawing :=
  drawRows { fb := fb, collision := false } oy ox rows

/-- The snapshot of the rows above row `n`: row `y` stands at bit `64 * y`. -/
def snapshotRows (fb : Vector (BitVec 64) 32) : Nat → BitVec 2048
  | 0 => 0
  | n + 1 => snapshotRows fb n ||| ((fb[n]?.getD 0).setWidth 2048 <<< (64 * n))

/-- R25 (b), R126: 2048 bits, bit `64 * y + x` = `FB[y][x]`. -/
def State.snapshot (s : State) : BitVec 2048 := snapshotRows s.fb 32

/-! ## Instructions -/

/-- R120 CLS. -/
def execCls (s : State) : Host.Outcome State Fault Refusal := complete { s with fb := clearDisplay }

/-- R121 DRW Vx, Vy, n: the origin wraps, the whole range is checked before anything changes, `VF` is written last. -/
def execDrw (x y n : Nibble) (s : State) : Host.Outcome State Fault Refusal :=
  match memRead s.mem s.index.toNat n.toNat with
  | none => raise (.addressOutOfRange (encode (.drw x y n))) s
  | some rows =>
    let d := drawSprite s.fb ((s.reg x).toNat % 64) ((s.reg y).toNat % 32) rows
    complete (({ s with fb := d.fb } : State).setReg vfIndex (flagByte d.collision))

end Sys2Proof.Machine
end

