-- ==== Sys2Proof/Machine/Immediate.lean ====
section
/-! DEFINITION. Register-immediate and index-register instructions (41_immediate_index.md). -/

namespace Sys2Proof.Machine

/-- R110 LD Vx, kk. -/
def execLdImm (x : Nibble) (kk : Byte) (s : State) : Host.Outcome State Fault Refusal := complete (s.setReg x kk)

/-- R111 ADD Vx, kk: wraps modulo 256 and writes no flag. -/
def execAddImm (x : Nibble) (kk : Byte) (s : State) : Host.Outcome State Fault Refusal :=
  complete (s.setReg x (s.reg x + kk))

/-- R112 LD I, nnn. -/
def execLdI (nnn : Addr12) (s : State) : Host.Outcome State Fault Refusal :=
  complete { s with index := zext16 nnn }

/-- R113 ADD I, Vx: the 16-bit sum is kept, `VF` is written last. -/
def execAddI (x : Nibble) (s : State) : Host.Outcome State Fault Refusal :=
  complete (({ s with index := s.index + (s.reg x).setWidth 16 } : State).setReg vfIndex
    (indexOverflowFlag s.index (s.reg x)))

/-- R114 LD F, Vx. -/
def execLdF (x : Nibble) (s : State) : Host.Outcome State Fault Refusal :=
  complete { s with index := glyphAddress (s.reg x) }

end Sys2Proof.Machine
end

