-- ==== Sys2Proof/Machine/Keyboard.lean ====
section
/-! DEFINITION. Keyboard and random-number instructions (43_keyboard_random.md). -/

namespace Sys2Proof.Machine

/-- R130 SKP Vx. -/
def execSkp (x : Nibble) (s : State) : Host.Outcome State Fault Refusal :=
  complete (s.skipIf (keyHeld s.keys (s.reg x)))

/-- R131 SKNP Vx. -/
def execSknp (x : Nibble) (s : State) : Host.Outcome State Fault Refusal :=
  complete (s.skipIf (!keyHeld s.keys (s.reg x)))

/-- R132: what the key wait does to the state: with no key held it rewinds, so that the next step fetches it again. -/
def waitForKey (s : State) (x : Nibble) : State :=
  match keyPick s.keys with
  | some k => s.setReg x k
  | none => s.rewind

/-- R132 LD Vx, K. -/
def execLdVxK (x : Nibble) (s : State) : Host.Outcome State Fault Refusal := complete (waitForKey s x)

/-- R133 RND Vx, kk. -/
def execRnd (x : Nibble) (kk : Byte) (s : State) : Host.Outcome State Fault Refusal :=
  complete (s.setReg x (s.rnd &&& kk))

end Sys2Proof.Machine
end

