-- ==== Sys2Proof/Machine/MemoryOps.lean ====
section
/-! DEFINITION. Memory instructions (44_memory_ops.md): the effective address is `I` plus an offset, without wrap. -/

namespace Sys2Proof.Machine

/-- R140 LD B, Vx. -/
def execLdB (x : Nibble) (s : State) : Host.Outcome State Fault Refusal :=
  match memWrite s.mem s.index.toNat (decimalDigits (s.reg x)) with
  | none => raise (.addressOutOfRange (encode (.ldB x))) s
  | some m => complete { s with mem := m }

/-- R141 LD [I], Vx. -/
def execStoreRegs (x : Nibble) (s : State) : Host.Outcome State Fault Refusal :=
  match memWrite s.mem s.index.toNat (regsUpTo s x) with
  | none => raise (.addressOutOfRange (encode (.storeRegs x))) s
  | some m => complete { s with mem := m, index := indexAfterBlock s x }

/-- R142 LD Vx, [I]. -/
def execLoadRegs (x : Nibble) (s : State) : Host.Outcome State Fault Refusal :=
  match memRead s.mem s.index.toNat (x.toNat + 1) with
  | none => raise (.addressOutOfRange (encode (.loadRegs x))) s
  | some bytes => complete { s with v := setRegsFrom s.v 0 bytes, index := indexAfterBlock s x }

end Sys2Proof.Machine
end

