-- ==== Sys2Proof/Machine/Timers.lean ====
section
/-! DEFINITION. The timer block and its instructions (45_timers.md), and the sound-active output. -/

namespace Sys2Proof.Machine

/-! ## The timer block -/

/-- R150: `T.arm(d, now)`. -/
def armTimer (d now : Nat) : Timer := ⟨now, d⟩

/-- R151: `max(0, duration - (now - armedAt))`, in quanta. -/
def Timer.remaining (t : Timer) (now : Nat) : Nat := t.duration - (now - t.armedAt)

/-- R152. -/
def Timer.expired (t : Timer) (now : Nat) : Bool := t.remaining now == 0

/-- R153: the unit count, rounded down, with `q` quanta per unit. -/
def Timer.units (t : Timer) (q now : Nat) : Nat := t.remaining now / q

/-- R157: the `sound_active` output at the host's time `now`. -/
def State.soundActive (s : State) (now : Nat) : Bool := !s.st.expired now

/-! ## Instructions -/

/-- R154 LD Vx, DT. -/
def execLdVxDt (x : Nibble) (s : State) : Host.Outcome State Fault Refusal :=
  complete (s.setReg x (BitVec.ofNat 8 (s.dt.units s.quanta s.now)))

/-- R155 LD DT, Vx. -/
def execLdDtVx (x : Nibble) (s : State) : Host.Outcome State Fault Refusal :=
  complete { s with dt := armTimer ((s.reg x).toNat * s.quanta) s.now }

/-- R156 LD ST, Vx. -/
def execLdStVx (x : Nibble) (s : State) : Host.Outcome State Fault Refusal :=
  complete { s with st := armTimer ((s.reg x).toNat * s.quanta) s.now }

end Sys2Proof.Machine
end

