-- ==== Sys2Proof/Machine/Step.lean ====
section
/-! DEFINITION. One step (R64 to R79): sample the inputs, fetch, advance, dispatch, execute. -/

namespace Sys2Proof.Machine

/-- One step. A signal of the fetch leaves `PC` where it was (R205); a word with no handler is raised after the advance
(R201). The checks come in the order of R209. -/
def step (s : State) : Host.Outcome State Fault Refusal :=
  match s.sample.fetch with
  | none => raise (.fetchOutOfRange s.sample.pc) s.sample
  | some op =>
    match decodeWord op with
    | none => raise (.unimplemented op) s.sample.advance
    | some i => exec i s.sample.advance

/-- The state with the instruction whose bits are the low `nbits` bits of `w` stored at `PC`, the place the next step
fetches from. Where `PC` is above 0xFFE there is no such place and the state is unchanged (assumption log 6). -/
def State.withFetchWord (s : State) (nbits w : Nat) : State :=
  { s with mem := storeWordAt s.mem s.pc.toNat (BitVec.ofNat 16 (w % 2 ^ nbits)) }

end Sys2Proof.Machine
end

