-- ==== Sys2Proof/Machine/Reset.lean ====
section
/-! DEFINITION. Reset with a program image (70_reset_and_hazards.md): the host's one action that builds a machine state. -/

namespace Sys2Proof.Machine

/-- R32: 1 selects Variant B, every other value Variant A. -/
def latchVariant (variantSel : Nat) : Variant := if variantSel = 1 then .B else .A

/-- R230, R231: memory after reset, the image from 0x200 upward over the reset contents. -/
def loadImage (image : List Byte) : List Host.Cell := writeBytes [] progBase image

/-- R230 to R232: the state after reset, or the load error with no state constructed. -/
def powerOn (image : List Byte) (variantSel nowReset : Nat) : Except LoadError State :=
  if wellFormedImage image then
    .ok { State.reset with
      mem := loadImage image
      variant := latchVariant variantSel
      now := nowReset
      dt := ⟨nowReset, 0⟩
      st := ⟨nowReset, 0⟩ }
  else .error .oversized

/-- R183: the `variant_id` output. -/
def State.variantId (s : State) : Variant := s.variant

end Sys2Proof.Machine
end

