-- ==== Sys2Proof/Safety.lean ====
section
/-! DEFINITION. What claims call a good state and a good run: the invariant of R33, a step that returned `Ok` (U10), and
the end of a run (R239). -/

namespace Sys2Proof.Machine

/-- A timer that could have been armed by an instruction no later than `now` (R33 (d)). -/
abbrev Timer.wf (t : Timer) (q now : Nat) : Prop := t.armedAt ≤ now ∧ t.duration ≤ 255 * q

/-- The invariant of the states a run reaches (R33, R14, R100, R5): `PC` at most 0x10FE, at most 16 return addresses,
each at most 0x1000, the memory canonical, both timers well formed, at least one quantum per unit. -/
abbrev State.Inv (s : State) : Prop :=
  s.pc.toNat ≤ 0x10FE ∧ s.stack.length ≤ stackDepth ∧ (∀ w ∈ s.stack, w.toNat ≤ 0x1000) ∧
    Memory.wf s.mem ∧ s.dt.wf s.quanta s.now ∧ s.st.wf s.quanta s.now ∧ 1 ≤ s.quanta

/-- The last step returned `Ok`; a run all of whose states satisfy this is well behaved (U10). -/
abbrev State.stepOk (s : State) : Prop := s.result = .ok

/-- R239: the program has ended: the word at `PC` is `JP PC`. -/
abbrev State.ended (s : State) : Prop := s.fetch = some (0x1000#16 ||| s.pc)

end Sys2Proof.Machine
end

