-- ==== Sys2Proof/Certificates/Slice0/Obligations.lean ====
section
/-! DEFINITION. The statements for the provers. Each docstring names the rule it formalises. An instruction's statement
gives its encoding (clause 1) and then, for every state, the next state that `exec` answers. `exec` starts after the
advance (R65), so `s.pc` in these statements is the address after the instruction. That what a step returns (R200) is read in the
field `result` is assumption log 1; the fields of the inputs are log 2, the host's schedule and the sampling counter log 3,
`Q` as a field log 4, and the forms of the stack, the framebuffer and memory log 8: the model's choices throughout. -/

open Sys2Proof Sys2Proof.Machine

/-! ## Words the statements use -/

/-- Nothing of the machine changed: only the sampled inputs, the host's schedule and the result may differ. -/
def Sys2Proof.Claims.sameButInputs (s t : State) : Prop :=
  t = { s with
    now := t.now, keys := t.keys, rnd := t.rnd, script := t.script, draws := t.draws, result := t.result }

/-- Completed, and `V[x] <- b` is all that happened. -/
def Sys2Proof.Claims.setsReg (s t : State) (x : Nibble) (b : Byte) : Prop :=
  t = { s with v := t.v, result := .ok } ∧ ∀ r, t.reg r = if r = x then b else s.reg r

/-- Completed; `V[x] <- res`, then `VF <- flag` last (R169), is all that happened. -/
def Sys2Proof.Claims.setsRegThenFlag (s t : State) (x : Nibble) (res : Nat) (flag : Prop) [Decidable flag] : Prop :=
  t = { s with v := t.v, result := .ok } ∧
    ∀ r, (t.reg r).toNat =
      if r = 0xF then (if flag then 1 else 0) else if r = x then res else (s.reg r).toNat

/-- R161 to R163: under Variant A the result is stored and `VF` is no flag; under Variant B `VF` ends 0, last. -/
def Sys2Proof.Claims.logicEffect (s t : State) (x : Nibble) (b : Byte) : Prop :=
  (s.variant = .A → Sys2Proof.Claims.setsReg s t x b) ∧
    (s.variant = .B → Sys2Proof.Claims.setsRegThenFlag s t x b.toNat False)

/-- Completed, and `PC` moving on by 2 more exactly when `c` holds is all that happened. -/
def Sys2Proof.Claims.skips (s t : State) (c : Prop) [Decidable c] : Prop :=
  t = { s with pc := if c then s.pc + 2 else s.pc, result := .ok }

/-- The sprite bit that R123 puts at column `px`, row `py`: `n` bytes at address `a`, origin `(ox, oy)`, bit 7 leftmost. -/
def Sys2Proof.Claims.spriteBit (m : List Host.Cell) (a ox oy n py px : Nat) : Bool :=
  decide (oy ≤ py ∧ py < oy + n ∧ ox ≤ px ∧ px < ox + 8) && (readByte m (a + (py - oy))).getLsbD (7 - (px - ox))

/-- The instructions that store to memory (R48). -/
def Sys2Proof.Claims.storesMemory : Instr → Bool
  | .ldB _ | .storeRegs _ => true
  | _ => false

/-- The instructions that write `I` (R12). -/
def Sys2Proof.Claims.writesIndex (v : Variant) : Instr → Bool
  | .ldI _ | .addI _ | .ldF _ => true
  | .storeRegs _ | .loadRegs _ => v = .A
  | _ => false

/-- The instructions that write `PC` beyond the advance (R13). -/
def Sys2Proof.Claims.writesPc : Instr → Bool
  | .ret | .jp _ | .call _ | .jpV0 _ | .seImm _ _ | .sneImm _ _ | .seReg _ _ | .sneReg _ _ | .skp _ | .sknp _
  | .ldVxK _ => true
  | _ => false

/-- The instructions that write `VF` as a flag: the last row of the table under R10. -/
def Sys2Proof.Claims.writesFlag (v : Variant) : Instr → Bool
  | .addReg _ _ | .sub _ _ | .subn _ _ | .shr _ _ | .shl _ _ | .drw _ _ _ | .addI _ => true
  | .orReg _ _ | .andReg _ _ | .xorReg _ _ => v = .B
  | _ => false

/-- The destination registers: the rows 'write `V[x]`' and 'write `V[0]`…`V[x]`' of the table under R10. -/
def Sys2Proof.Claims.isDestination (r : Nibble) : Instr → Bool
  | .ldImm x _ | .addImm x _ | .ldReg x _ | .orReg x _ | .andReg x _ | .xorReg x _ | .addReg x _ | .sub x _ | .subn x _
  | .shr x _ | .shl x _ | .rnd x _ | .ldVxDt x | .ldVxK x => r = x
  | .loadRegs x => r.toNat ≤ x.toNat
  | _ => false

/-- The eight variant-sensitive encodings (R182). -/
def Sys2Proof.Claims.variantSensitive : Instr → Bool
  | .shr _ _ | .shl _ _ | .jpV0 _ | .storeRegs _ | .loadRegs _ | .orReg _ _ | .andReg _ _ | .xorReg _ _ => true
  | _ => false

/-- R42, the table: the glyphs 0 to F, row 0 first. -/
def Sys2Proof.Claims.glyphs : List (List Byte) :=
  [[0xF0, 0x90, 0x90, 0x90, 0xF0], [0x20, 0x60, 0x20, 0x20, 0x70], [0xF0, 0x10, 0xF0, 0x80, 0xF0],
    [0xF0, 0x10, 0xF0, 0x10, 0xF0], [0x90, 0x90, 0xF0, 0x10, 0x10], [0xF0, 0x80, 0xF0, 0x10, 0xF0]] ++
  [[0xF0, 0x80, 0xF0, 0x90, 0xF0], [0xF0, 0x10, 0x20, 0x40, 0x40], [0xF0, 0x90, 0xF0, 0x90, 0xF0],
    [0xF0, 0x90, 0xF0, 0x10, 0xF0], [0xF0, 0x90, 0xF0, 0x90, 0x90], [0xE0, 0x90, 0xE0, 0x90, 0xE0]] ++
  [[0xF0, 0x80, 0x80, 0x80, 0xF0], [0xE0, 0x90, 0x90, 0x90, 0xE0], [0xF0, 0x80, 0xF0, 0x80, 0xF0],
    [0xF0, 0x80, 0xF0, 0x80, 0x80]]

/-- R42: the byte of row `i` of glyph `d`. -/
def Sys2Proof.Claims.glyphRow (d i : Nat) : Byte := (Sys2Proof.Claims.glyphs.getD d []).getD i 0x00

open Sys2Proof.Claims

/-! ## Reset -/

/-- R26 to R30, at `State.reset`, whose `now` is `now_reset` (its value is the model's choice, assumption log 5, and no
clause rests on it). -/
def Obligations.ResetLeavesRegistersTimersAndDisplay : Prop :=
  State.reset.pc = 0x0200 ∧ (∀ x, State.reset.reg x = 0x00) ∧ State.reset.index = 0x0000 ∧ State.reset.stack = [] ∧
    State.reset.dt = ⟨State.reset.now, 0⟩ ∧ State.reset.st = ⟨State.reset.now, 0⟩ ∧
    (∀ t, State.reset.now ≤ t → State.reset.dt.units State.reset.quanta t = 0 ∧
      State.reset.st.units State.reset.quanta t = 0 ∧ State.reset.soundActive t = false) ∧
    ∀ y x, y < 32 → x < 64 → pixel State.reset.fb y x = false

/-- R26 to R32, for every image that fits, every strap value and every `now_reset`. The font bytes are those written in
R42. -/
def Obligations.ResetLoadsFontImageAndVariant : Prop :=
  ∀ (image : List Byte) (sel now : Nat), image.length ≤ 3584 → ∃ s, powerOn image sel now = .ok s ∧
    s.pc = 0x0200 ∧ (∀ x, s.reg x = 0x00) ∧ s.index = 0x0000 ∧ s.stack = [] ∧
    s.dt = ⟨now, 0⟩ ∧ s.st = ⟨now, 0⟩ ∧
    (∀ t, now ≤ t → s.dt.units s.quanta t = 0 ∧ s.st.units s.quanta t = 0 ∧ s.soundActive t = false) ∧
    (∀ y x, y < 32 → x < 64 → pixel s.fb y x = false) ∧
    (∀ d i, d < 16 → i < 5 → readByte s.mem (0x050 + 5 * d + i) = glyphRow d i) ∧
    (∀ k (h : k < image.length), readByte s.mem (0x200 + k) = image[k]) ∧
    (∀ a, a ≤ 0xFFF → ¬ (0x050 ≤ a ∧ a ≤ 0x09F) → ¬ (0x200 ≤ a ∧ a < 0x200 + image.length) →
      readByte s.mem a = 0x00) ∧
    (sel = 1 → s.variant = .B) ∧ (sel ≠ 1 → s.variant = .A)

/-- An image that does not fit, and no other, gives the load error, and no state with it (the part of R232 that concerns
the core; the rest of R232 is the host's duty). -/
def Obligations.ResetRejectsOversizedImage : Prop :=
  ∀ (image : List Byte) (sel now : Nat), powerOn image sel now = .error .oversized ↔ 3584 < image.length

/-- Whatever the image, the strap and the time, reset leaves the fields they do not decide as in `State.reset`. This is
the model's choice for the latched result (assumption log 1), for `keys` and `rnd` (log 2), for the schedule and the
sampling counter (log 3) and for `Q` (log 4), and for `now` as last sampled (log 2); no rule states these. -/
def Obligations.ResetDiffersOnlyByItsInputs : Prop :=
  ∀ (image : List Byte) (sel now : Nat) (s : State), powerOn image sel now = .ok s →
    s = { State.reset with mem := s.mem, variant := s.variant, now := now, dt := s.dt, st := s.st }

/-- The invariant holds at `State.reset`. It is the spec's own inference (R33, R14, marked derived there), strengthened by
the canonical form of memory (assumption log 8). -/
def Obligations.ResetMeetsInvariant : Prop := State.reset.Inv

/-- The invariant holds after reset with any image, strap value and time. It is the spec's own inference (R33, R14,
marked derived there), strengthened by the canonical form of memory (assumption log 8). -/
def Obligations.EveryResetMeetsInvariant : Prop :=
  ∀ (image : List Byte) (sel now : Nat) (s : State), powerOn image sel now = .ok s → s.Inv

/-! ## The step -/

/-- Every step from every state that meets the invariant answers a state that meets it. The invariant is the spec's own
inference (R33, and R14 for the bound on `PC`, marked derived there), strengthened by the canonical form of memory (assumption log 8). -/
def Obligations.StepKeepsStateInvariant : Prop := ∀ s t, s.Inv → step s = .next t → t.Inv

/-- R64, R65, R66, R79: when the two bytes at `PC` lie in memory and decode to `i`, the step samples the inputs, moves
`PC` past the instruction and is `exec` of `i`. How the inputs are sampled is the model's choice: that `now`, `keys` and
`rnd` are fields is assumption log 2; that `now` grows by the presented elapsed time, that the host's schedule moves on by
one (`script.tail`) and that the sampling counter does (`draws + 1`) are log 3. -/
def Obligations.StepRunsDecodedInstruction : Prop :=
  ∀ s i, s.pc.toNat + 1 ≤ 0xFFF →
    decodeWord (readByte s.mem s.pc.toNat ++ readByte s.mem (s.pc.toNat + 1)) = some i →
    step s = exec i { s with
      pc := s.pc + 2
      now := s.now + s.nextInput.elapsed
      keys := s.nextInput.keys
      rnd := s.nextInput.rnd
      script := s.script.tail
      draws := s.draws + 1 }

/-- R43: the byte at `PC` is the high byte of the fetched word, the byte at `PC + 1` the low byte. -/
def Obligations.FetchIsBigEndian : Prop :=
  ∀ s : State, s.pc.toNat + 1 ≤ 0xFFF → ∃ op, s.fetch = some op ∧
    op.extractLsb' 8 8 = readByte s.mem s.pc.toNat ∧ op.extractLsb' 0 8 = readByte s.mem (s.pc.toNat + 1)

/-- R205: with `PC` at 0xFFF or above every step, however many, returns FetchOutOfRange with that `PC`, and nothing of
the machine ever changes. -/
def Obligations.FetchOutOfRangeRepeatsForever : Prop :=
  ∀ s : State, 0xFFF ≤ s.pc.toNat → ∀ k, ∃ t, Host.Core.run Sys2Proof.core (k + 1) s = .next t ∧
    t.result = .fetchOutOfRange s.pc ∧ sameButInputs s t

/-- R201: a fetched word is reported as unimplemented exactly when no row of the opcode map selects it; then `PC` has
advanced by 2 and nothing else of the machine changed. -/
def Obligations.UnimplementedWordIsReported : Prop :=
  ∀ (s : State) (op : Word), s.fetch = some op →
    (wellFormedWord op = false → ∃ t, step s = .next t ∧ t.result = .unimplemented op ∧
      sameButInputs { s with pc := s.pc + 2 } t) ∧
    (wellFormedWord op = true → ∀ t, step s = .next t → ∀ w, t.result ≠ .unimplemented w)

/-- R73: the step function is total: every step answers a next state. -/
def Obligations.StepIsTotal : Prop := ∀ s, ∃ t, step s = .next t

/-- R206: a step that returns a signal leaves the machine as it was, but that `PC` has advanced by 2 for codes 1 to 4. -/
def Obligations.SignalsArePrecise : Prop :=
  ∀ s t, step s = .next t → t.result ≠ .ok →
    (1 ≤ t.result.code ∧ t.result.code ≤ 4 ∧ sameButInputs { s with pc := s.pc + 2 } t) ∨
    (t.result.code = 5 ∧ sameButInputs s t)

/-- R200, the columns payload and raised by, and R209: which instruction returns which signal, with which payload, and
under which check. -/
def Obligations.SignalsComeFromTheirInstructions : Prop :=
  ∀ i s t, exec i s = .next t →
    match t.result with
    | .ok => True
    | .unimplemented _ => False
    | .stackUnderflow op => i = .ret ∧ op = 0x00EE ∧ s.stack = []
    | .stackOverflow op => (∃ nnn, i = .call nnn) ∧ op = encode i ∧ 16 ≤ s.stack.length
    | .addressOutOfRange op => op = encode i ∧
      ((∃ x y n, i = .drw x y n ∧ 1 ≤ n.toNat ∧ 0xFFF < s.index.toNat + n.toNat - 1) ∨
        (∃ x, i = .ldB x ∧ 0xFFF < s.index.toNat + 2) ∨
        (∃ x, (i = .storeRegs x ∨ i = .loadRegs x) ∧ 0xFFF < s.index.toNat + x.toNat))
    | .fetchOutOfRange _ => False

/-! ## Encoding -/

/-- Decoding the word of any instruction gives that instruction, with every operand at every value (from the opcode map,
R78, and the decoder of R66 to R71; the encoder is the model's). -/
def Obligations.DecodeUndoesEncode : Prop := ∀ i, decodeWord (encode i) = some i

/-- Encoding a decoded word gives the word back, but for the ignored low nibble of categories 5 and 9 (R71; that the
encoder writes 0 there is assumption log 7). -/
def Obligations.EncodeUndoesDecode : Prop :=
  ∀ op i, decodeWord op = some i →
    encode i = if op.extractLsb' 12 4 = 0x5 ∨ op.extractLsb' 12 4 = 0x9 then op &&& 0xFFF0 else op

/-- R72, and R74 (marked derived in the spec): the decoder gives an instruction exactly for the words that a row of the
opcode map selects, the rows are disjoint, and the instruction is that of the row. -/
def Obligations.DecoderFollowsOpcodeMap : Prop :=
  (∀ op, (decodeWord op).isSome = wellFormedWord op) ∧
  (∀ op, ∀ r ∈ opcodeRows, ∀ r' ∈ opcodeRows, r.selects op = true → r'.selects op = true → r = r') ∧
  (∀ op i, ∀ r ∈ opcodeRows, decodeWord op = some i → r.selects op = r.selects (encode i)) ∧
  ∀ op, (decodeWord op = none ↔
    (op.extractLsb' 12 4 = 0x0 ∧ op.extractLsb' 0 12 ≠ 0x0E0 ∧ op.extractLsb' 0 12 ≠ 0x0EE) ∨
    (op.extractLsb' 12 4 = 0x8 ∧ op.extractLsb' 0 4 ∈ [0x8#4, 0x9#4, 0xA#4, 0xB#4, 0xC#4, 0xD#4, 0xF#4]) ∨
    (op.extractLsb' 12 4 = 0xE ∧ op.extractLsb' 0 8 ∉ [0x9E#8, 0xA1#8]) ∨
    (op.extractLsb' 12 4 = 0xF ∧
      op.extractLsb' 0 8 ∉ [0x07#8, 0x0A#8, 0x15#8, 0x18#8, 0x1E#8, 0x29#8, 0x33#8, 0x55#8, 0x65#8]))

/-- R78: words written out from the opcode map decode to what they stand for. -/
def Obligations.WordsDecodeAsTheMapSays : Prop :=
  decodeWord 0x00EE = some .ret ∧ decodeWord 0x6A05 = some (.ldImm 0xA 0x05) ∧ decodeWord 0x8126 = some (.shr 0x1 0x2) ∧
    decodeWord 0xA300 = some (.ldI 0x300) ∧ decodeWord 0xD01F = some (.drw 0x0 0x1 0xF) ∧
    decodeWord 0xE29E = some (.skp 0x2) ∧ decodeWord 0xFA1E = some (.addI 0xA) ∧ decodeWord 0xF255 = some (.storeRegs 0x2) ∧
    decodeWord 0x0000 = none ∧ decodeWord 0x8128 = none

/-! ## Control flow -/

/-- R100. The stack is written most recent entry first (assumption log 8). -/
def Obligations.ReturnFromSubroutine : Prop :=
  decodeWord 0x00EE = some .ret ∧
  (∀ s target rest, s.stack = target :: rest →
    exec .ret s = .next { s with pc := target, stack := rest, result := .ok }) ∧
  ∀ s, s.stack = [] → exec .ret s = .next { s with result := .stackUnderflow 0x00EE }

/-- R101. -/
def Obligations.JumpToAddress : Prop :=
  ∀ nnn : Addr12, decodeWord (0x1#4 ++ nnn) = some (.jp nnn) ∧
    ∀ s, ∃ t, exec (.jp nnn) s = .next t ∧ t = { s with pc := t.pc, result := .ok } ∧ t.pc.toNat = nnn.toNat

/-- R102. A depth above 16 occurs in no run; it is treated as full (assumption log 9). -/
def Obligations.CallSubroutine : Prop :=
  ∀ nnn : Addr12, decodeWord (0x2#4 ++ nnn) = some (.call nnn) ∧
    (∀ s : State, s.stack.length < 16 → ∃ t, exec (.call nnn) s = .next t ∧
      t = { s with pc := t.pc, stack := s.pc :: s.stack, result := .ok } ∧ t.pc.toNat = nnn.toNat) ∧
    ∀ s : State, s.stack.length = 16 →
      exec (.call nnn) s = .next { s with result := .stackOverflow (0x2#4 ++ nnn) }

/-- R103, R104. -/
def Obligations.SkipOnImmediate : Prop :=
  ∀ (x : Nibble) (kk : Byte),
    decodeWord (0x3#4 ++ x ++ kk) = some (.seImm x kk) ∧ decodeWord (0x4#4 ++ x ++ kk) = some (.sneImm x kk) ∧
    ∀ s, (∃ t, exec (.seImm x kk) s = .next t ∧ skips s t (s.reg x = kk)) ∧
      ∃ t, exec (.sneImm x kk) s = .next t ∧ skips s t (s.reg x ≠ kk)

/-- R105, R106, R71: for every value of the ignored low nibble. -/
def Obligations.SkipOnRegisters : Prop :=
  ∀ x y : Nibble,
    (∀ ignored : Nibble, decodeWord (0x5#4 ++ x ++ y ++ ignored) = some (.seReg x y) ∧
      decodeWord (0x9#4 ++ x ++ y ++ ignored) = some (.sneReg x y)) ∧
    ∀ s, (∃ t, exec (.seReg x y) s = .next t ∧ skips s t (s.reg x = s.reg y)) ∧
      ∃ t, exec (.sneReg x y) s = .next t ∧ skips s t (s.reg x ≠ s.reg y)

/-- R107. -/
def Obligations.JumpWithOffset : Prop :=
  ∀ nnn : Addr12, decodeWord (0xB#4 ++ nnn) = some (.jpV0 nnn) ∧
    ∀ s, ∃ t, exec (.jpV0 nnn) s = .next t ∧ t = { s with pc := t.pc, result := .ok } ∧
      (s.variant = .A → t.pc.toNat = (nnn.toNat + (s.reg 0x0).toNat) % 65536) ∧
      (s.variant = .B → t.pc.toNat = (nnn.toNat + (s.reg (nnn.extractLsb' 8 4)).toNat) % 65536)

/-! ## Immediate and index -/

/-- R110. -/
def Obligations.LoadImmediate : Prop :=
  ∀ (x : Nibble) (kk : Byte), decodeWord (0x6#4 ++ x ++ kk) = some (.ldImm x kk) ∧
    ∀ s, ∃ t, exec (.ldImm x kk) s = .next t ∧ setsReg s t x kk

/-- R111: no flag is written. -/
def Obligations.AddImmediate : Prop :=
  ∀ (x : Nibble) (kk : Byte), decodeWord (0x7#4 ++ x ++ kk) = some (.addImm x kk) ∧
    ∀ s, ∃ t, exec (.addImm x kk) s = .next t ∧
      setsReg s t x (BitVec.ofNat 8 (((s.reg x).toNat + kk.toNat) % 256))

/-- R112. -/
def Obligations.LoadIndex : Prop :=
  ∀ nnn : Addr12, decodeWord (0xA#4 ++ nnn) = some (.ldI nnn) ∧
    ∀ s, ∃ t, exec (.ldI nnn) s = .next t ∧ t = { s with index := t.index, result := .ok } ∧
      t.index.toNat = nnn.toNat

/-- R113: the exact sum decides the flag, `I` keeps the sum modulo 65536, `VF` is written last. -/
def Obligations.AddToIndex : Prop :=
  ∀ x : Nibble, decodeWord (0xF#4 ++ x ++ 0x1E#8) = some (.addI x) ∧
    ∀ s, ∃ t, exec (.addI x) s = .next t ∧ t = { s with v := t.v, index := t.index, result := .ok } ∧
      t.index.toNat = (s.index.toNat + (s.reg x).toNat) % 65536 ∧
      ∀ r, (t.reg r).toNat =
        if r = 0xF then (if s.index.toNat + (s.reg x).toNat > 0xFFF then 1 else 0) else (s.reg r).toNat

/-- R114. -/
def Obligations.FontGlyphAddress : Prop :=
  ∀ x : Nibble, decodeWord (0xF#4 ++ x ++ 0x29#8) = some (.ldF x) ∧
    ∀ s, ∃ t, exec (.ldF x) s = .next t ∧ t = { s with index := t.index, result := .ok } ∧
      t.index.toNat = 0x050 + 5 * (s.reg x).toNat

/-! ## Arithmetic and logic -/

/-- R160. -/
def Obligations.CopyRegister : Prop :=
  ∀ x y : Nibble, decodeWord (0x8#4 ++ x ++ y ++ 0x0#4) = some (.ldReg x y) ∧
    ∀ s, ∃ t, exec (.ldReg x y) s = .next t ∧ setsReg s t x (s.reg y)

/-- R161, R162, R163: under Variant A `VF` is written only as the destination, under Variant B it ends 0. -/
def Obligations.LogicOperations : Prop :=
  ∀ x y : Nibble, decodeWord (0x8#4 ++ x ++ y ++ 0x1#4) = some (.orReg x y) ∧
    decodeWord (0x8#4 ++ x ++ y ++ 0x2#4) = some (.andReg x y) ∧
    decodeWord (0x8#4 ++ x ++ y ++ 0x3#4) = some (.xorReg x y) ∧
    ∀ s, (∃ t, exec (.orReg x y) s = .next t ∧ logicEffect s t x (s.reg x ||| s.reg y)) ∧
      (∃ t, exec (.andReg x y) s = .next t ∧ logicEffect s t x (s.reg x &&& s.reg y)) ∧
      ∃ t, exec (.xorReg x y) s = .next t ∧ logicEffect s t x (s.reg x ^^^ s.reg y)

/-- R164. -/
def Obligations.AddRegisters : Prop :=
  ∀ x y : Nibble, decodeWord (0x8#4 ++ x ++ y ++ 0x4#4) = some (.addReg x y) ∧
    ∀ s, ∃ t, exec (.addReg x y) s = .next t ∧
      setsRegThenFlag s t x (((s.reg x).toNat + (s.reg y).toNat) % 256) ((s.reg x).toNat + (s.reg y).toNat > 255)

/-- R165, R167: `a` is `V[x]`, `b` is `V[y]`; 256 is added before the difference so that no natural is negative. -/
def Obligations.SubtractBothWays : Prop :=
  ∀ x y : Nibble, decodeWord (0x8#4 ++ x ++ y ++ 0x5#4) = some (.sub x y) ∧
    decodeWord (0x8#4 ++ x ++ y ++ 0x7#4) = some (.subn x y) ∧
    ∀ s a b, (s.reg x).toNat = a → (s.reg y).toNat = b →
      (∃ t, exec (.sub x y) s = .next t ∧ setsRegThenFlag s t x ((256 + a - b) % 256) (a ≥ b)) ∧
      ∃ t, exec (.subn x y) s = .next t ∧ setsRegThenFlag s t x ((256 + b - a) % 256) (b ≥ a)

/-- R166, R168: the source is `V[y]` under Variant A and `V[x]` under Variant B. -/
def Obligations.ShiftBothWays : Prop :=
  ∀ x y : Nibble, decodeWord (0x8#4 ++ x ++ y ++ 0x6#4) = some (.shr x y) ∧
    decodeWord (0x8#4 ++ x ++ y ++ 0xE#4) = some (.shl x y) ∧
    ∀ s src, (s.variant = .A → src = (s.reg y).toNat) → (s.variant = .B → src = (s.reg x).toNat) →
      (∃ t, exec (.shr x y) s = .next t ∧ setsRegThenFlag s t x (src / 2) (src % 2 = 1)) ∧
      ∃ t, exec (.shl x y) s = .next t ∧ setsRegThenFlag s t x (src * 2 % 256) (128 ≤ src)

/-- R11, R33 (f): an instruction that writes a flag and completes leaves exactly 0 or 1 in `VF`. -/
def Obligations.FlagIsZeroOrOne : Prop :=
  ∀ i s t, writesFlag s.variant i = true → exec i s = .next t → t.result = .ok →
    t.reg 0xF = 0x00 ∨ t.reg 0xF = 0x01

/-! ## Keyboard and random -/

/-- R133: for every random byte. -/
def Obligations.RandomByteMasked : Prop :=
  ∀ (x : Nibble) (kk : Byte), decodeWord (0xC#4 ++ x ++ kk) = some (.rnd x kk) ∧
    ∀ s, ∃ t, exec (.rnd x kk) s = .next t ∧ setsReg s t x (s.rnd &&& kk)

/-- R130, R131, R134: an identifier of 0x10 or more is not held. -/
def Obligations.KeySkips : Prop :=
  ∀ x : Nibble, decodeWord (0xE#4 ++ x ++ 0x9E#8) = some (.skp x) ∧
    decodeWord (0xE#4 ++ x ++ 0xA1#8) = some (.sknp x) ∧
    ∀ s, (∃ t, exec (.skp x) s = .next t ∧
        skips s t ((s.reg x).toNat ≤ 0x0F ∧ s.keys.getLsbD (s.reg x).toNat = true)) ∧
      ∃ t, exec (.sknp x) s = .next t ∧
        skips s t ((s.reg x).toNat ≥ 0x10 ∨ s.keys.getLsbD (s.reg x).toNat = false)

/-- R132, R135: with a key held the lowest-numbered one is reported; with none held `PC` goes back by 2. -/
def Obligations.KeyWait : Prop :=
  ∀ x : Nibble, decodeWord (0xF#4 ++ x ++ 0x0A#8) = some (.ldVxK x) ∧
    (∀ s : State, s.keys = 0 → exec (.ldVxK x) s = .next { s with pc := s.pc - 2, result := .ok }) ∧
    ∀ s : State, s.keys ≠ 0 → ∃ k, k < 16 ∧ s.keys.getLsbD k = true ∧ (∀ j, j < k → s.keys.getLsbD j = false) ∧
      ∃ t, exec (.ldVxK x) s = .next t ∧ setsReg s t x (BitVec.ofNat 8 k)

/-! ## Timers -/

/-- R154, R151, R153. The hypotheses on the timer are the invariant's (`ResetMeetsInvariant`, `StepKeepsStateInvariant`). -/
def Obligations.ReadDelayTimer : Prop :=
  ∀ x : Nibble, decodeWord (0xF#4 ++ x ++ 0x07#8) = some (.ldVxDt x) ∧
    ∀ s : State, 1 ≤ s.quanta → s.dt.wf s.quanta s.now →
      ∃ t b, exec (.ldVxDt x) s = .next t ∧ setsReg s t x b ∧
        b.toNat = (s.dt.armedAt + s.dt.duration - s.now) / s.quanta

/-- R155, R156: `T.arm(V[x] × Q, now)`. -/
def Obligations.ArmTimers : Prop :=
  ∀ x : Nibble, decodeWord (0xF#4 ++ x ++ 0x15#8) = some (.ldDtVx x) ∧
    decodeWord (0xF#4 ++ x ++ 0x18#8) = some (.ldStVx x) ∧
    ∀ s : State, exec (.ldDtVx x) s = .next { s with dt := ⟨s.now, (s.reg x).toNat * s.quanta⟩, result := .ok } ∧
      exec (.ldStVx x) s = .next { s with st := ⟨s.now, (s.reg x).toNat * s.quanta⟩, result := .ok }

/-- From R151, R152, R153, R157 (the decay is marked derived in the spec): the remaining time only decays, a timer armed with `u` units reads `u` at once, one unit
later at most `u - 1`, and 0 once its time is over; the count never exceeds 255. -/
def Obligations.TimersDecay : Prop :=
  (∀ (t : Timer) (a b : Nat), a ≤ b → t.remaining b ≤ t.remaining a) ∧
  (∀ (t : Timer) (q now : Nat), 1 ≤ q → t.duration ≤ 255 * q → t.units q now ≤ 255) ∧
  (∀ u q now e : Nat, 1 ≤ q → (armTimer (u * q) now).units q now = u ∧
    (q ≤ e → (armTimer (u * q) now).units q (now + e) ≤ u - 1) ∧
    (u * q ≤ e → (armTimer (u * q) now).expired (now + e) = true)) ∧
  ∀ (s : State) (now : Nat), s.soundActive now = true ↔ s.st.remaining now ≠ 0

/-! ## Memory -/

/-- R44, and the access of R45: outside memory neither happens; inside, a read gives the bytes in ascending order, and
after a write those bytes read back, every other byte reads as before, and the canonical form is kept. That last clause
(`Memory.wf`) is no rule of the spec: the canonical form is the model's choice, assumption log 8. -/
def Obligations.MemoryAccessesAreExactOrNone : Prop :=
  (∀ (m : List Host.Cell) (a n : Nat), 1 ≤ n → 0xFFF < a + n - 1 → memRead m a n = none) ∧
  (∀ (m : List Host.Cell) (a : Nat), memRead m a 0 = some []) ∧
  (∀ (m : List Host.Cell) (a n : Nat), 1 ≤ n → a + n - 1 ≤ 0xFFF → ∃ bs, memRead m a n = some bs ∧ bs.length = n ∧
    ∀ k (h : k < bs.length), bs[k] = readByte m (a + k)) ∧
  (∀ (m : List Host.Cell) (a : Nat) (bs : List Byte), bs ≠ [] → 0xFFF < a + bs.length - 1 → memWrite m a bs = none) ∧
  ∀ (m : List Host.Cell) (a : Nat) (bs : List Byte), bs ≠ [] → a + bs.length - 1 ≤ 0xFFF →
    ∃ m', memWrite m a bs = some m' ∧ (∀ k (h : k < bs.length), readByte m' (a + k) = bs[k]) ∧
      (∀ b, b < a ∨ a + bs.length ≤ b → readByte m' b = readByte m b) ∧ (Memory.wf m → Memory.wf m')

/-- R140: the digits, and nothing else; `I` is not changed (the pseudocode writes no `I`, and R12 names LD B among no
writers of it; the spec's own remark on it is marked derived). -/
def Obligations.StoreDecimalDigits : Prop :=
  ∀ x : Nibble, decodeWord (0xF#4 ++ x ++ 0x33#8) = some (.ldB x) ∧
    (∀ s : State, s.index.toNat + 2 ≤ 0xFFF → ∃ t, exec (.ldB x) s = .next t ∧
      t = { s with mem := t.mem, result := .ok } ∧
      (readByte t.mem s.index.toNat).toNat = (s.reg x).toNat / 100 ∧
      (readByte t.mem (s.index.toNat + 1)).toNat = (s.reg x).toNat / 10 % 10 ∧
      (readByte t.mem (s.index.toNat + 2)).toNat = (s.reg x).toNat % 10 ∧
      ∀ a, a < s.index.toNat ∨ s.index.toNat + 2 < a → readByte t.mem a = readByte s.mem a) ∧
    ∀ s : State, 0xFFF < s.index.toNat + 2 →
      exec (.ldB x) s = .next { s with result := .addressOutOfRange (0xF#4 ++ x ++ 0x33#8) }

/-- R141. -/
def Obligations.BlockStore : Prop :=
  ∀ x : Nibble, decodeWord (0xF#4 ++ x ++ 0x55#8) = some (.storeRegs x) ∧
    (∀ s : State, s.index.toNat + x.toNat ≤ 0xFFF → ∃ t, exec (.storeRegs x) s = .next t ∧
      t = { s with mem := t.mem, index := t.index, result := .ok } ∧
      (∀ r : Nibble, r.toNat ≤ x.toNat → readByte t.mem (s.index.toNat + r.toNat) = s.reg r) ∧
      (∀ a, a < s.index.toNat ∨ s.index.toNat + x.toNat < a → readByte t.mem a = readByte s.mem a) ∧
      (s.variant = .A → t.index.toNat = (s.index.toNat + x.toNat + 1) % 65536) ∧
      (s.variant = .B → t.index = s.index)) ∧
    ∀ s : State, 0xFFF < s.index.toNat + x.toNat →
      exec (.storeRegs x) s = .next { s with result := .addressOutOfRange (0xF#4 ++ x ++ 0x55#8) }

/-- R142. -/
def Obligations.BlockLoad : Prop :=
  ∀ x : Nibble, decodeWord (0xF#4 ++ x ++ 0x65#8) = some (.loadRegs x) ∧
    (∀ s : State, s.index.toNat + x.toNat ≤ 0xFFF → ∃ t, exec (.loadRegs x) s = .next t ∧
      t = { s with v := t.v, index := t.index, result := .ok } ∧
      (∀ r : Nibble, t.reg r =
        if r.toNat ≤ x.toNat then readByte s.mem (s.index.toNat + r.toNat) else s.reg r) ∧
      (s.variant = .A → t.index.toNat = (s.index.toNat + x.toNat + 1) % 65536) ∧
      (s.variant = .B → t.index = s.index)) ∧
    ∀ s : State, 0xFFF < s.index.toNat + x.toNat →
      exec (.loadRegs x) s = .next { s with result := .addressOutOfRange (0xF#4 ++ x ++ 0x65#8) }

/-- R141, R142: what a block store stored, a block load from the same address loads, whatever the registers held. -/
def Obligations.BlockLoadUndoesBlockStore : Prop :=
  ∀ (x : Nibble) (s : State) (w : Vector Byte 16), s.index.toNat + x.toNat ≤ 0xFFF →
    ∃ t u, exec (.storeRegs x) s = .next t ∧ exec (.loadRegs x) { t with index := s.index, v := w } = .next u ∧
      u.mem = t.mem ∧ ∀ r : Nibble, r.toNat ≤ x.toNat → u.reg r = s.reg r

/-- Two bytes stored at `PC` are the word the very next fetch reads (R55, marked derived in the spec). -/
def Obligations.StoreIsSeenByNextFetch : Prop :=
  ∀ (x : Nibble) (s : State), 1 ≤ x.toNat → s.index = s.pc → s.pc.toNat + x.toNat ≤ 0xFFF →
    ∃ t, exec (.storeRegs x) s = .next t ∧ t.fetch = some (s.reg 0x0 ++ s.reg 0x1)

/-! ## Display -/

/-- R120, R122. -/
def Obligations.ClearDisplay : Prop :=
  decodeWord 0x00E0 = some .cls ∧
  ∀ s, ∃ t, exec .cls s = .next t ∧ t = { s with fb := t.fb, result := .ok } ∧
    ∀ y x, y < 32 → x < 64 → pixel t.fb y x = false

/-- R121, R123, R124, R125: the origin wraps, the body is clipped, each 1-bit toggles its pixel, `VF` is the collision;
the whole range is checked before anything changes; with `n` = 0 nothing is drawn and `VF` is 0. -/
def Obligations.DrawSprite : Prop :=
  ∀ x y n : Nibble, decodeWord (0xD#4 ++ x ++ y ++ n) = some (.drw x y n) ∧
    (∀ s : State, n.toNat = 0 ∨ s.index.toNat + n.toNat - 1 ≤ 0xFFF → ∃ t, exec (.drw x y n) s = .next t ∧
      t = { s with v := t.v, fb := t.fb, result := .ok } ∧ (∀ r, r ≠ 0xF → t.reg r = s.reg r) ∧
      (∀ py px, py < 32 → px < 64 → pixel t.fb py px =
        (pixel s.fb py px ^^ spriteBit s.mem s.index.toNat ((s.reg x).toNat % 64) ((s.reg y).toNat % 32) n.toNat py px)) ∧
      (t.reg 0xF = 0x00 ∨ t.reg 0xF = 0x01) ∧
      (t.reg 0xF = 0x01 ↔ ∃ py px, py < 32 ∧ px < 64 ∧ pixel s.fb py px = true ∧
        spriteBit s.mem s.index.toNat ((s.reg x).toNat % 64) ((s.reg y).toNat % 32) n.toNat py px = true)) ∧
    ∀ s : State, 1 ≤ n.toNat → 0xFFF < s.index.toNat + n.toNat - 1 →
      exec (.drw x y n) s = .next { s with result := .addressOutOfRange (0xD#4 ++ x ++ y ++ n) }

/-- R127 (whose clause on clipped sprites the spec marks derived): drawing the same sprite twice restores the
framebuffer, clipped or not; and where the first draw of a sprite
that is not clipped met no lit pixel, the second draw's flag says whether the sprite has a 1-bit. -/
def Obligations.DrawingTwiceRestoresDisplay : Prop :=
  ∀ (fb : Vector (BitVec 64) 32) (ox oy : Nat) (rows : List Byte),
    (drawSprite (drawSprite fb ox oy rows).fb ox oy rows).fb = fb ∧
    (ox + 7 ≤ 63 → oy + rows.length ≤ 32 → (drawSprite fb ox oy rows).collision = false →
      (drawSprite (drawSprite fb ox oy rows).fb ox oy rows).collision = rows.any (fun b => b != 0))

/-- R25 (b), R126: the snapshot's bit `64 × y + x` is the pixel at column `x`, row `y`. -/
def Obligations.SnapshotShowsEveryPixel : Prop :=
  ∀ (s : State) (y x : Nat), y < 32 → x < 64 → s.snapshot.getLsbD (64 * y + x) = pixel s.fb y x

/-! ## Frames and whole-machine rules -/

/-- The table of writers under R10 (marked derived in the spec): a register that is neither a destination nor the flag register of a flag-writing
instruction is unchanged, whatever the instruction and however it ends. -/
def Obligations.OnlyDestinationAndFlagRegistersChange : Prop :=
  ∀ i s t r, exec i s = .next t → isDestination r i = false → (r = 0xF → writesFlag s.variant i = false) →
    t.reg r = s.reg r

/-- R48, R57: an instruction other than LD B and LD [I] leaves every byte of memory; those two leave every byte outside
`I` to `I + 2`, respectively `I` to `I + x`. -/
def Obligations.OnlyStoredBytesChange : Prop :=
  (∀ i s t, exec i s = .next t → storesMemory i = false → ∀ a, readByte t.mem a = readByte s.mem a) ∧
  (∀ x s t, exec (.ldB x) s = .next t →
    ∀ a, a < s.index.toNat ∨ s.index.toNat + 3 ≤ a → readByte t.mem a = readByte s.mem a) ∧
  ∀ x s t, exec (.storeRegs x) s = .next t →
    ∀ a, a < s.index.toNat ∨ s.index.toNat + x.toNat + 1 ≤ a → readByte t.mem a = readByte s.mem a

/-- R12, R13: `I` changes only by the instructions named in R12, and `PC` stays as advanced but for control flow, the
skips and the key wait. -/
def Obligations.OnlyNamedInstructionsWriteIndexAndPc : Prop :=
  ∀ i s t, exec i s = .next t →
    (writesIndex s.variant i = false → t.index = s.index) ∧ (writesPc i = false → t.pc = s.pc)

/-- R15, R17, R18, R19: only CALL and RET touch the stack, only CLS and DRW the framebuffer, only LD DT the delay timer,
only LD ST the sound timer. -/
def Obligations.OnlyNamedInstructionsWriteStackDisplayTimers : Prop :=
  ∀ i s t, exec i s = .next t →
    ((∀ nnn, i ≠ .call nnn) → i ≠ .ret → t.stack = s.stack) ∧
    (i ≠ .cls → (∀ x y n, i ≠ .drw x y n) → t.fb = s.fb) ∧
    ((∀ x, i ≠ .ldDtVx x) → t.dt = s.dt) ∧ ((∀ x, i ≠ .ldStVx x) → t.st = s.st)

/-- No step changes the variant (R181, R20) or `Q`, no instruction changes an input, and time never runs back. Most of its
form is the model's choice: `Q` as a field is assumption log 4, the inputs as fields log 2, and log 3 the host's schedule,
the sampling counter and time as the old `now` plus the presented elapsed time, a natural number. Monotone time is the
host's duty in the spec (R240, R241); here log 3 builds it in. -/
def Obligations.VariantAndInputsAreNeverWritten : Prop :=
  (∀ s t, step s = .next t → t.variant = s.variant ∧ t.quanta = s.quanta ∧ s.now ≤ t.now ∧
    t.now = s.now + s.nextInput.elapsed ∧ t.keys = s.nextInput.keys ∧ t.rnd = s.nextInput.rnd) ∧
  ∀ i s t, exec i s = .next t → t.variant = s.variant ∧ t.quanta = s.quanta ∧ t.now = s.now ∧ t.keys = s.keys ∧
    t.rnd = s.rnd ∧ t.script = s.script ∧ t.draws = s.draws

/-- Outside the eight encodings of R182 the variants do the same (R184, marked derived in the spec). -/
def Obligations.VariantsAgreeOutsideEightEncodings : Prop :=
  ∀ i (s t : State), variantSensitive i = false → exec i { s with variant := .A } = .next t →
    exec i { s with variant := .B } = .next { t with variant := .B }

/-- R102, R100: RET with the stack a CALL left resumes at the instruction after the CALL, with the stack as it was. -/
def Obligations.ReturnResumesAfterCall : Prop :=
  ∀ (nnn : Addr12) (s : State), s.stack.length < 16 → ∃ t, exec (.call nnn) s = .next t ∧
    ∀ u : State, u.stack = t.stack →
      exec .ret u = .next { u with pc := s.pc, stack := s.stack, result := .ok }

/-- A self-jump is a fixed point (R239, marked derived in the spec): the step returns `Ok`, nothing of the machine changes, and the program has still
ended. -/
def Obligations.SelfJumpIsFixedPoint : Prop :=
  ∀ s : State, s.ended → ∃ t, step s = .next t ∧ t.result = .ok ∧ sameButInputs s t ∧ t.ended
end

