-- ==== Sys2Proof/Laws/Decode.lean ====
section
/-! SUPPORT. What the field extractors read from the encoder's formats (R61, R62), and that a word is its bytes (R43). -/

namespace Sys2Proof

section Fields
variable (c x y n : Nibble) (kk : Byte) (nnn : Addr12)

@[simp] theorem fieldCat_encodeAddr : fieldCat (encodeAddr c nnn) = c := by
  rw [fieldCat, encodeAddr, BitVec.extractLsb'_append_eq_of_le (by decide)]
  exact BitVec.extractLsb'_eq_self

@[simp] theorem fieldNNN_encodeAddr : fieldNNN (encodeAddr c nnn) = nnn := by
  rw [fieldNNN, encodeAddr, BitVec.extractLsb'_append_eq_of_add_le (by decide)]
  exact BitVec.extractLsb'_eq_self

@[simp] theorem fieldCat_encodeRegImm : fieldCat (encodeRegImm c x kk) = c := by
  rw [fieldCat, encodeRegImm, BitVec.extractLsb'_append_eq_of_le (by decide), BitVec.extractLsb'_append_eq_of_le (by decide)]
  exact BitVec.extractLsb'_eq_self

@[simp] theorem fieldX_encodeRegImm : fieldX (encodeRegImm c x kk) = x := by
  rw [fieldX, encodeRegImm, BitVec.extractLsb'_append_eq_of_le (by decide), BitVec.extractLsb'_append_eq_of_add_le (by decide)]
  exact BitVec.extractLsb'_eq_self

@[simp] theorem fieldKK_encodeRegImm : fieldKK (encodeRegImm c x kk) = kk := by
  rw [fieldKK, encodeRegImm, BitVec.extractLsb'_append_eq_of_add_le (by decide)]
  exact BitVec.extractLsb'_eq_self

@[simp] theorem fieldCat_encodeRegReg : fieldCat (encodeRegReg c x y n) = c := by
  rw [fieldCat, encodeRegReg, BitVec.extractLsb'_append_eq_of_le (by decide), BitVec.extractLsb'_append_eq_of_le (by decide), BitVec.extractLsb'_append_eq_of_le (by decide)]
  exact BitVec.extractLsb'_eq_self

@[simp] theorem fieldX_encodeRegReg : fieldX (encodeRegReg c x y n) = x := by
  rw [fieldX, encodeRegReg, BitVec.extractLsb'_append_eq_of_le (by decide), BitVec.extractLsb'_append_eq_of_le (by decide), BitVec.extractLsb'_append_eq_of_add_le (by decide)]
  exact BitVec.extractLsb'_eq_self

@[simp] theorem fieldY_encodeRegReg : fieldY (encodeRegReg c x y n) = y := by
  rw [fieldY, encodeRegReg, BitVec.extractLsb'_append_eq_of_le (by decide), BitVec.extractLsb'_append_eq_of_add_le (by decide)]
  exact BitVec.extractLsb'_eq_self

@[simp] theorem fieldN_encodeRegReg : fieldN (encodeRegReg c x y n) = n := by
  rw [fieldN, encodeRegReg, BitVec.extractLsb'_append_eq_of_add_le (by decide)]
  exact BitVec.extractLsb'_eq_self

end Fields

@[simp] theorem highByte_wordOfBytes (hi lo : Byte) : highByte (wordOfBytes hi lo) = hi := by
  rw [highByte, wordOfBytes, BitVec.extractLsb'_append_eq_of_le (by decide)]
  exact BitVec.extractLsb'_eq_self

@[simp] theorem lowByte_wordOfBytes (hi lo : Byte) : lowByte (wordOfBytes hi lo) = lo := by
  rw [lowByte, wordOfBytes, BitVec.extractLsb'_append_eq_of_add_le (by decide)]
  exact BitVec.extractLsb'_eq_self

/-- R43: the bytes of a word, high byte first, are the word. -/
@[simp] theorem wordOfBytes_bytes (op : Word) : wordOfBytes (highByte op) (lowByte op) = op := by
  exact (BitVec.extractLsb'_append_extractLsb'_eq_extractLsb' (by decide)).trans BitVec.extractLsb'_eq_self

/-- A word is its four nibbles (R61, R62). -/
theorem encodeRegReg_fields (op : Word) : encodeRegReg (fieldCat op) (fieldX op) (fieldY op) (fieldN op) = op := by
  have h1 : (op.extractLsb' 12 4 ++ op.extractLsb' 8 4 : BitVec 8) = op.extractLsb' 8 8 :=
    BitVec.extractLsb'_append_extractLsb'_eq_extractLsb' (by decide)
  have h2 : (op.extractLsb' 8 8 ++ op.extractLsb' 4 4 : BitVec 12) = op.extractLsb' 4 12 :=
    BitVec.extractLsb'_append_extractLsb'_eq_extractLsb' (by decide)
  have h3 : (op.extractLsb' 4 12 ++ op.extractLsb' 0 4 : BitVec 16) = op.extractLsb' 0 16 :=
    BitVec.extractLsb'_append_extractLsb'_eq_extractLsb' (by decide)
  have : encodeRegReg (fieldCat op) (fieldX op) (fieldY op) (fieldN op) =
      ((op.extractLsb' 12 4 ++ op.extractLsb' 8 4 : BitVec 8) ++ op.extractLsb' 4 4 : BitVec 12) ++ op.extractLsb' 0 4 :=
    rfl
  rw [this, h1, h2, h3]
  exact BitVec.extractLsb'_eq_self

/-! ## The masks of the opcode map (R78, R80) -/

theorem nibble_and_ones (c : Nibble) : c &&& 0xF#4 = c := BitVec.and_allOnes

theorem byte_and_ones (b : Byte) : b &&& 0xFF#8 = b := BitVec.and_allOnes

theorem encodeAddr_and_cat (c : Nibble) (nnn : Addr12) : encodeAddr c nnn &&& 0xF000 = encodeAddr c 0 := by
  have h : (0xF000 : Word) = 0xF#4 ++ 0x000#12 := rfl
  rw [h, encodeAddr, BitVec.and_append]
  simp [encodeAddr, nibble_and_ones]

theorem encodeRegImm_and_cat (c x : Nibble) (kk : Byte) : encodeRegImm c x kk &&& 0xF000 = encodeRegImm c 0 0 := by
  have h : (0xF000 : Word) = 0xF#4 ++ 0x0#4 ++ 0x00#8 := rfl
  rw [h, encodeRegImm, BitVec.and_append, BitVec.and_append]
  simp [encodeRegImm, nibble_and_ones]

theorem encodeRegImm_and_sel (c x : Nibble) (kk : Byte) : encodeRegImm c x kk &&& 0xF0FF = encodeRegImm c 0 kk := by
  have h : (0xF0FF : Word) = 0xF#4 ++ 0x0#4 ++ 0xFF#8 := rfl
  rw [h, encodeRegImm, BitVec.and_append, BitVec.and_append]
  simp [encodeRegImm, nibble_and_ones, byte_and_ones]

theorem encodeRegReg_and_cat (c x y n : Nibble) : encodeRegReg c x y n &&& 0xF000 = encodeRegReg c 0 0 0 := by
  have h : (0xF000 : Word) = 0xF#4 ++ 0x0#4 ++ 0x0#4 ++ 0x0#4 := rfl
  rw [h, encodeRegReg, BitVec.and_append, BitVec.and_append, BitVec.and_append]
  simp [encodeRegReg, nibble_and_ones]

theorem encodeRegReg_and_sel (c x y n : Nibble) : encodeRegReg c x y n &&& 0xF00F = encodeRegReg c 0 0 n := by
  have h : (0xF00F : Word) = 0xF#4 ++ 0x0#4 ++ 0x0#4 ++ 0xF#4 := rfl
  rw [h, encodeRegReg, BitVec.and_append, BitVec.and_append, BitVec.and_append]
  simp [encodeRegReg, nibble_and_ones]

end Sys2Proof
end

