-- ==== Sys2Proof/Laws/Display.lean ====
section
/-! SUPPORT. What the display block's operations do to each pixel. -/

namespace Sys2Proof.Machine

theorem pixel_togglePixel (fb : Vector (BitVec 64) 32) (y x py px : Nat) (hy : y < 32) (hx : x < 64) :
    pixel (togglePixel fb y x) py px = (pixel fb py px ^^ decide (py = y ∧ px = x)) := by
  by_cases hp : py < 32
  · by_cases h : y = py
    · subst h
      simp [pixel, togglePixel, hy, BitVec.getLsbD_twoPow, hx, eq_comm]
    · simp [pixel, togglePixel, hp, h, Ne.symm h]
  · simp [pixel, hp, show ¬ py = y from by omega]

@[simp] theorem pixel_clearDisplay (y x : Nat) : pixel clearDisplay y x = false := by
  by_cases hy : y < 32 <;> simp [pixel, clearDisplay, hy]

/-- Two framebuffers with the same pixels are the same. -/
theorem fb_ext {f g : Vector (BitVec 64) 32} (h : ∀ y x, y < 32 → x < 64 → pixel f y x = pixel g y x) : f = g := by
  ext y hy x hx
  simpa [pixel, hy, BitVec.getLsbD_eq_getElem hx] using h y x hy hx

/-- The inner step of R123, at every pixel. -/
theorem pixel_plot (d : Drawing) (py px : Nat) (bit : Bool) (y x : Nat) (hy : y < 32) (hx : x < 64) :
    pixel (plot d py px bit).fb y x = (pixel d.fb y x ^^ (decide (y = py ∧ x = px) && bit)) := by
  unfold plot
  split
  · rename_i h
    rw [pixel_togglePixel _ _ _ _ _ (by omega) (by omega), h.2.2, Bool.and_true]
  · rename_i h
    by_cases hb : bit = true
    · have hp : ¬ (y = py ∧ x = px) := fun hp => h ⟨by omega, by omega, hb⟩
      rw [decide_eq_false hp]; simp
    · simp [hb]

/-- R124 for one bit: the collision seen so far, or this bit meeting its own lit pixel inside the grid. -/
theorem collision_plot (d : Drawing) (py px : Nat) (bit : Bool) :
    (plot d py px bit).collision = (d.collision || (decide (py < 32 ∧ px < 64) && bit && pixel d.fb py px)) := by
  unfold plot
  split
  · rename_i h
    simp [h.2.2, show py < 32 from by omega, show px < 64 from by omega]
  · rename_i h
    by_cases hb : bit = true
    · have hp : ¬ (py < 32 ∧ px < 64) := fun hp => h ⟨by omega, by omega, hb⟩
      rw [decide_eq_false hp]; simp
    · simp [hb]

/-! ## Rows and sprites -/

/-- The bit a row drawn at column `ox` puts at column `x` (bit 7 leftmost, R123). -/
def rowBit (ox x : Nat) (row : Byte) : Bool := decide (ox ≤ x ∧ x < ox + 8) && row.getLsbD (7 - (x - ox))

/-- The bit a sprite drawn at `(ox, oy)` puts at column `x`, row `y`. -/
def spriteBitOf (ox oy y x : Nat) (rows : List Byte) : Bool :=
  decide (oy ≤ y ∧ y < oy + rows.length) && rowBit ox x (rows.getD (y - oy) 0)

theorem pixel_drawBits (d : Drawing) (py ox : Nat) (row : Byte) (cs : List Nat) (hn : cs.Nodup) (y x : Nat)
    (hy : y < 32) (hx : x < 64) : pixel (drawBits d py ox row cs).fb y x =
      (pixel d.fb y x ^^ cs.any (fun c => decide (y = py ∧ x = ox + c) && row.getLsbD (7 - c))) := by
  induction cs generalizing d with
  | nil => simp [drawBits]
  | cons c cs ih =>
    rw [List.nodup_cons] at hn
    rw [drawBits, ih _ hn.2, pixel_plot _ _ _ _ _ _ hy hx, List.any_cons, Bool.xor_assoc]
    congr 1
    by_cases h : y = py ∧ x = ox + c
    · have : cs.any (fun c => decide (y = py ∧ x = ox + c) && row.getLsbD (7 - c)) = false := by
        rw [List.any_eq_false]
        intro c' hc'
        have : ¬ x = ox + c' := fun he => hn.1 (by rw [show c = c' from by omega]; exact hc')
        simp [this]
      rw [this, Bool.xor_false, Bool.or_false]
    · rw [decide_eq_false h, Bool.false_and, Bool.false_xor, Bool.false_or]

theorem collision_drawBits (d : Drawing) (py ox : Nat) (row : Byte) (cs : List Nat) (hn : cs.Nodup) :
    (drawBits d py ox row cs).collision = (d.collision ||
      cs.any (fun c => decide (py < 32 ∧ ox + c < 64) && row.getLsbD (7 - c) && pixel d.fb py (ox + c))) := by
  induction cs generalizing d with
  | nil => simp [drawBits]
  | cons c cs ih =>
    rw [List.nodup_cons] at hn
    rw [drawBits, ih _ hn.2, collision_plot, List.any_cons, Bool.or_assoc]
    congr 2
    rw [Bool.eq_iff_iff, List.any_eq_true, List.any_eq_true]
    refine exists_congr fun c' => and_congr_right fun hc' => ?_
    by_cases hg : py < 32 ∧ ox + c' < 64
    · have hne : ¬ (py = py ∧ ox + c' = ox + c) := fun he => hn.1 (by rw [show c = c' from by omega]; exact hc')
      rw [pixel_plot _ _ _ _ _ _ hg.1 hg.2, decide_eq_false hne, Bool.false_and, Bool.xor_false]
    · rw [decide_eq_false hg]; simp

/-- A row drawn at row `py`, at every pixel. -/
theorem pixel_drawRow (d : Drawing) (py ox : Nat) (row : Byte) (y x : Nat) (hy : y < 32) (hx : x < 64) :
    pixel (drawBits d py ox row [0, 1, 2, 3, 4, 5, 6, 7]).fb y x =
      (pixel d.fb y x ^^ (decide (y = py) && rowBit ox x row)) := by
  rw [pixel_drawBits _ _ _ _ _ (by decide) _ _ hy hx]
  congr 1
  by_cases hp : y = py
  · by_cases hc : ox ≤ x ∧ x < ox + 8
    · obtain ⟨c, hc', rfl⟩ : ∃ c, c < 8 ∧ x = ox + c := ⟨x - ox, by omega, by omega⟩
      simp only [rowBit, hp, hc, true_and, decide_true, Bool.true_and, Nat.add_sub_cancel_left, Nat.add_left_cancel_iff]
      interval_cases c <;> simp
    · have : ∀ c ∈ [0, 1, 2, 3, 4, 5, 6, 7], ¬ (y = py ∧ x = ox + c) := by
        intro c hm; simp at hm; omega
      rw [rowBit, decide_eq_false hc, Bool.false_and, Bool.and_false, List.any_eq_false]
      intro c hm
      simp [decide_eq_false (this c hm)]
  · simp [hp]

/-- A row's collision: one of its 1-bits meets its own lit pixel. -/
theorem collision_drawRow (d : Drawing) (py ox : Nat) (row : Byte) :
    (drawBits d py ox row [0, 1, 2, 3, 4, 5, 6, 7]).collision = true ↔
      d.collision = true ∨ py < 32 ∧ ∃ x, x < 64 ∧ rowBit ox x row = true ∧ pixel d.fb py x = true := by
  rw [collision_drawBits _ _ _ _ _ (by decide), Bool.or_eq_true, List.any_eq_true]
  refine or_congr_right ⟨?_, ?_⟩
  · rintro ⟨c, hc, h⟩
    have hc8 : c < 8 := by simp at hc; omega
    simp only [Bool.and_eq_true, decide_eq_true_eq] at h
    refine ⟨h.1.1.1, ox + c, h.1.1.2, ?_, h.2⟩
    simp [rowBit, hc8, h.1.2]
  · rintro ⟨hp, x, hx, hb, hl⟩
    simp only [rowBit, Bool.and_eq_true, decide_eq_true_eq] at hb
    refine ⟨x - ox, by simp; omega, ?_⟩
    rw [show ox + (x - ox) = x from by omega]
    simp [hp, hx, hb.2, hl]

theorem pixel_drawRows (d : Drawing) (py ox : Nat) (rows : List Byte) (y x : Nat) (hy : y < 32) (hx : x < 64) :
    pixel (drawRows d py ox rows).fb y x = (pixel d.fb y x ^^ spriteBitOf ox py y x rows) := by
  induction rows generalizing d py with
  | nil => simp [drawRows, spriteBitOf, show ¬ (py ≤ y ∧ y < py) from by omega]
  | cons row rows ih =>
    rw [drawRows, ih, pixel_drawRow _ _ _ _ _ _ hy hx, Bool.xor_assoc]
    congr 1
    rcases Nat.lt_trichotomy y py with h | h | h
    · simp [spriteBitOf, show ¬ y = py from by omega, show ¬ py + 1 ≤ y from by omega, show ¬ py ≤ y from by omega]
    · subst h; simp [spriteBitOf]
    · simp only [spriteBitOf, show ¬ y = py from by omega, decide_false, Bool.false_and, Bool.false_xor, List.length_cons]
      rw [show y - py = (y - (py + 1)) + 1 from by omega, List.getD_cons_succ]
      congr 1
      exact decide_eq_decide.2 (by omega)

theorem collision_drawRows (d : Drawing) (py ox : Nat) (rows : List Byte) :
    (drawRows d py ox rows).collision = true ↔ d.collision = true ∨
      ∃ y x, y < 32 ∧ x < 64 ∧ spriteBitOf ox py y x rows = true ∧ pixel d.fb y x = true := by
  induction rows generalizing d py with
  | nil => simp [drawRows, spriteBitOf]
  | cons row rows ih =>
    rw [drawRows, ih, collision_drawRow, or_assoc]
    refine or_congr_right ⟨?_, ?_⟩
    · rintro (⟨hp, x, hx, hb, hl⟩ | ⟨y, x, hy, hx, hb, hl⟩)
      · exact ⟨py, x, hp, hx, by simp [spriteBitOf, hb], hl⟩
      · simp only [spriteBitOf, Bool.and_eq_true, decide_eq_true_eq] at hb
        rw [pixel_drawRow _ _ _ _ _ _ hy hx] at hl
        refine ⟨y, x, hy, hx, ?_, by simpa [show ¬ y = py from by omega] using hl⟩
        simp only [spriteBitOf, Bool.and_eq_true, decide_eq_true_eq, List.length_cons]
        rw [show y - py = (y - (py + 1)) + 1 from by omega, List.getD_cons_succ]
        exact ⟨by omega, hb.2⟩
    · rintro ⟨y, x, hy, hx, hb, hl⟩
      simp only [spriteBitOf, Bool.and_eq_true, decide_eq_true_eq, List.length_cons] at hb
      by_cases h : y = py
      · subst h; exact .inl ⟨hy, x, hx, by simpa using hb.2, hl⟩
      · refine .inr ⟨y, x, hy, hx, ?_, by rw [pixel_drawRow _ _ _ _ _ _ hy hx]; simpa [h] using hl⟩
        simp only [spriteBitOf, Bool.and_eq_true, decide_eq_true_eq]
        rw [show y - py = (y - (py + 1)) + 1 from by omega, List.getD_cons_succ] at hb
        exact ⟨by omega, hb.2⟩

/-- R123, R125: a sprite toggles exactly the pixels of its 1-bits that lie in the grid. -/
theorem pixel_drawSprite (fb : Vector (BitVec 64) 32) (ox oy : Nat) (rows : List Byte) (y x : Nat) (hy : y < 32)
    (hx : x < 64) : pixel (drawSprite fb ox oy rows).fb y x = (pixel fb y x ^^ spriteBitOf ox oy y x rows) :=
  pixel_drawRows _ _ _ _ _ _ hy hx

/-- R124: the collision flag, in terms of the framebuffer before the draw. -/
theorem collision_drawSprite (fb : Vector (BitVec 64) 32) (ox oy : Nat) (rows : List Byte) :
    (drawSprite fb ox oy rows).collision = true ↔
      ∃ y x, y < 32 ∧ x < 64 ∧ spriteBitOf ox oy y x rows = true ∧ pixel fb y x = true := by
  rw [drawSprite, collision_drawRows]; simp

end Sys2Proof.Machine
end

