-- ==== Sys2Proof/Laws/Memory.lean ====
section
/-! SUPPORT. The laws of the memory controller: read after write, other bytes untouched, the canonical form kept. -/

namespace Sys2Proof.Machine

/-! ## Reset contents -/

/-- Inside the font table an unlisted address reads as the font (R42). -/
theorem unlisted_font {a : Nat} (h : 0x050 ≤ a) : unlisted a = fontData.getD (a - 0x050) 0x00 := if_pos h

/-- Outside the font table an unlisted address reads as 0 (R31). -/
theorem unlisted_zero {a : Nat} (h : ¬ (0x050 ≤ a ∧ a ≤ 0x09F)) : unlisted a = 0x00 := by
  by_cases ha : 0x050 ≤ a
  · have hl : fontData.length ≤ a - 0x050 := show 80 ≤ a - 0x050 by omega
    rw [unlisted_font ha, List.getD_eq_default _ _ hl]
  · exact if_neg ha

/-! ## One byte -/

theorem readByte_filter_self (m : List Host.Cell) (a : Nat) :
    readByte (m.filter (fun c => c.1 != a)) a = unlisted a := by
  induction m with
  | nil => rfl
  | cons c rest ih =>
    obtain ⟨k, b⟩ := c
    by_cases h : k = a
    · simpa [h] using ih
    · simp [h, readByte, Ne.symm h, ih]

theorem readByte_filter_other (m : List Host.Cell) {a b : Nat} (h : b ≠ a) :
    readByte (m.filter (fun c => c.1 != a)) b = readByte m b := by
  induction m with
  | nil => rfl
  | cons c rest ih =>
    obtain ⟨k, d⟩ := c
    by_cases hk : k = a
    · subst hk; simp [readByte, h, ih]
    · simp [hk, readByte, ih]

theorem readByte_insertCell (m : List Host.Cell) (a : Nat) (v : Byte) (b : Nat) (hm : ∀ c ∈ m, c.1 ≠ a) :
    readByte (insertCell m a v) b = if b = a then v else readByte m b := by
  induction m with
  | nil => rfl
  | cons c rest ih =>
    obtain ⟨k, d⟩ := c
    have hk : k ≠ a := hm (k, d) (by simp)
    have ih := ih fun c hc => hm c (by simp [hc])
    simp only [insertCell]
    split
    · simp [readByte]
    · simp only [readByte, ih]
      by_cases hb : b = k
      · subst hb; simp [hk]
      · simp [hb]

/-- A byte reads back what was last written to it, and every other byte reads as before, for every list of cells. -/
theorem readByte_writeByte (m : List Host.Cell) (a : Nat) (v : Byte) (b : Nat) :
    readByte (writeByte m a v) b = if b = a then v else readByte m b := by
  have hne : ∀ c ∈ m.filter (fun c => c.1 != a), c.1 ≠ a := by simp
  simp only [writeByte]
  split
  · by_cases hb : b = a
    · subst hb; simp [readByte_filter_self, *]
    · simp [hb, readByte_filter_other]
  · rw [readByte_insertCell _ _ _ _ hne]
    split
    · rfl
    · exact readByte_filter_other _ ‹_›

/-! ## The canonical form -/

theorem mem_insertCell {m : List Host.Cell} {a : Nat} {v : Byte} {c : Host.Cell} :
    c ∈ insertCell m a v ↔ c = (a, v) ∨ c ∈ m := by
  induction m with
  | nil => simp [insertCell]
  | cons d rest ih =>
    obtain ⟨k, w⟩ := d
    simp only [insertCell]
    split <;> simp [ih, or_left_comm]

theorem insertCell_sorted (m : List Host.Cell) (a : Nat) (v : Byte) (hm : ∀ c ∈ m, c.1 ≠ a)
    (hs : m.Pairwise fun c d => c.1 < d.1) : (insertCell m a v).Pairwise fun c d => c.1 < d.1 := by
  induction m with
  | nil => simp [insertCell]
  | cons d rest ih =>
    obtain ⟨k, w⟩ := d
    have hk : k ≠ a := hm (k, w) (by simp)
    simp only [List.pairwise_cons] at hs
    simp only [insertCell]
    split
    · rename_i hlt
      simp only [List.pairwise_cons, List.mem_cons, forall_eq_or_imp]
      exact ⟨⟨hlt, fun c hc => lt_trans hlt (hs.1 c hc)⟩, hs⟩
    · simp only [List.pairwise_cons]
      refine ⟨fun c hc => ?_, ih (fun c hc => hm c (by simp [hc])) hs.2⟩
      rcases mem_insertCell.1 hc with rfl | hc
      · simp only; omega
      · exact hs.1 c hc

/-- A write inside memory keeps the canonical form. -/
theorem writeByte_wf {m : List Host.Cell} {a : Nat} (v : Byte) (ha : a ≤ 0xFFF) (hm : Memory.wf m) :
    Memory.wf (writeByte m a v) := by
  have hne : ∀ c ∈ m.filter (fun c => c.1 != a), c.1 ≠ a := by simp
  have hs := hm.1.filter (fun c => c.1 != a)
  have hc : ∀ c ∈ m.filter (fun c => c.1 != a), c.1 ≤ 0xFFF ∧ c.2 ≠ unlisted c.1 :=
    fun c h => hm.2 c (List.mem_of_mem_filter h)
  simp only [writeByte]
  split
  · exact ⟨hs, hc⟩
  · refine ⟨insertCell_sorted _ _ _ hne hs, fun c h => ?_⟩
    rcases mem_insertCell.1 h with rfl | h
    · exact ⟨ha, ‹_›⟩
    · exact hc c h

/-- Memory right after reset, with nothing listed, is canonical. -/
theorem wf_nil : Memory.wf [] := ⟨.nil, by simp⟩

/-! ## Several bytes -/

@[simp] theorem readBytes_length (m : List Host.Cell) (a n : Nat) : (readBytes m a n).length = n := by
  induction n generalizing a with
  | zero => rfl
  | succ n ih => simp [readBytes, ih]

theorem readBytes_getElem (m : List Host.Cell) (a n k : Nat) (h : k < (readBytes m a n).length) :
    (readBytes m a n)[k] = readByte m (a + k) := by
  induction n generalizing a k with
  | zero => simp [readBytes] at h
  | succ n ih =>
    cases k with
    | zero => simp [readBytes]
    | succ k =>
      simp only [readBytes, List.getElem_cons_succ, ih]
      rw [show a + 1 + k = a + (k + 1) from by omega]

/-- Bytes written read back in ascending order; every other byte reads as before. -/
theorem readByte_writeBytes (m : List Host.Cell) (a : Nat) (bs : List Byte) (b : Nat) :
    readByte (writeBytes m a bs) b =
      if h : a ≤ b ∧ b < a + bs.length then bs[b - a]'(by omega) else readByte m b := by
  induction bs generalizing m a with
  | nil => simp only [writeBytes, List.length_nil]; rw [dif_neg (by omega)]
  | cons v bs ih =>
    simp only [writeBytes, ih, readByte_writeByte, List.length_cons]
    by_cases hb : b = a
    · subst hb
      rw [dif_neg (by omega), dif_pos (by omega)]
      simp
    · by_cases h : a + 1 ≤ b ∧ b < a + 1 + bs.length
      · rw [dif_pos h, dif_pos (by omega)]
        simp only [show b - a = (b - (a + 1)) + 1 from by omega, List.getElem_cons_succ]
      · rw [dif_neg h, dif_neg (by omega), if_neg hb]

theorem writeBytes_wf {m : List Host.Cell} {a : Nat} (bs : List Byte) (ha : a + bs.length ≤ 0x1000)
    (hm : Memory.wf m) : Memory.wf (writeBytes m a bs) := by
  induction bs generalizing m a with
  | nil => exact hm
  | cons v bs ih =>
    simp only [List.length_cons] at ha
    exact ih (by omega) (writeByte_wf v (by omega) hm)

/-! ## The bounds-checked accesses -/

theorem inRange_iff {a n : Nat} : inRange a n = true ↔ n = 0 ∨ a + n ≤ 0x1000 := by
  simp only [inRange, decide_eq_true_eq]; omega

/-- R44: everything a read can answer. -/
theorem memRead_eq (m : List Host.Cell) (a n : Nat) :
    memRead m a n = if n = 0 ∨ a + n ≤ 0x1000 then some (readBytes m a n) else none := by
  simp only [memRead, inRange_iff]

/-- R45: everything a write can answer. -/
theorem memWrite_eq (m : List Host.Cell) (a : Nat) (bs : List Byte) :
    memWrite m a bs = if bs.length = 0 ∨ a + bs.length ≤ 0x1000 then some (writeBytes m a bs) else none := by
  simp only [memWrite, inRange_iff]

/-- Every write that happens keeps the canonical form. -/
theorem memWrite_wf {m m' : List Host.Cell} {a : Nat} {bs : List Byte} (h : memWrite m a bs = some m')
    (hm : Memory.wf m) : Memory.wf m' := by
  rw [memWrite_eq] at h
  split at h
  · rename_i hr
    obtain rfl := Option.some.inj h
    rcases hr with h0 | h1
    · rw [List.length_eq_zero_iff.1 h0]; exact hm
    · exact writeBytes_wf bs h1 hm
  · cases h

end Sys2Proof.Machine
end

