-- ==== Sys2Proof/Laws/State.lean ====
section
/-! SUPPORT. One lemma per field per named update of State, each true by definition, so that no proof unfolds an update. -/

namespace Sys2Proof.Machine

variable (s : State)

/-! ## `setReg` -/

@[simp] theorem State.setReg_v (x : Nibble) (b : Byte) : (s.setReg x b).v = s.v.set x.toNat b x.isLt := rfl
@[simp] theorem State.setReg_index (x : Nibble) (b : Byte) : (s.setReg x b).index = s.index := rfl
@[simp] theorem State.setReg_pc (x : Nibble) (b : Byte) : (s.setReg x b).pc = s.pc := rfl
@[simp] theorem State.setReg_stack (x : Nibble) (b : Byte) : (s.setReg x b).stack = s.stack := rfl
@[simp] theorem State.setReg_mem (x : Nibble) (b : Byte) : (s.setReg x b).mem = s.mem := rfl
@[simp] theorem State.setReg_fb (x : Nibble) (b : Byte) : (s.setReg x b).fb = s.fb := rfl
@[simp] theorem State.setReg_dt (x : Nibble) (b : Byte) : (s.setReg x b).dt = s.dt := rfl
@[simp] theorem State.setReg_st (x : Nibble) (b : Byte) : (s.setReg x b).st = s.st := rfl
@[simp] theorem State.setReg_variant (x : Nibble) (b : Byte) : (s.setReg x b).variant = s.variant := rfl
@[simp] theorem State.setReg_quanta (x : Nibble) (b : Byte) : (s.setReg x b).quanta = s.quanta := rfl
@[simp] theorem State.setReg_now (x : Nibble) (b : Byte) : (s.setReg x b).now = s.now := rfl
@[simp] theorem State.setReg_keys (x : Nibble) (b : Byte) : (s.setReg x b).keys = s.keys := rfl
@[simp] theorem State.setReg_rnd (x : Nibble) (b : Byte) : (s.setReg x b).rnd = s.rnd := rfl
@[simp] theorem State.setReg_result (x : Nibble) (b : Byte) : (s.setReg x b).result = s.result := rfl
@[simp] theorem State.setReg_script (x : Nibble) (b : Byte) : (s.setReg x b).script = s.script := rfl
@[simp] theorem State.setReg_draws (x : Nibble) (b : Byte) : (s.setReg x b).draws = s.draws := rfl

/-! ## `advance` -/

@[simp] theorem State.advance_v : s.advance.v = s.v := rfl
@[simp] theorem State.advance_index : s.advance.index = s.index := rfl
@[simp] theorem State.advance_pc : s.advance.pc = s.pc + 2 := rfl
@[simp] theorem State.advance_stack : s.advance.stack = s.stack := rfl
@[simp] theorem State.advance_mem : s.advance.mem = s.mem := rfl
@[simp] theorem State.advance_fb : s.advance.fb = s.fb := rfl
@[simp] theorem State.advance_dt : s.advance.dt = s.dt := rfl
@[simp] theorem State.advance_st : s.advance.st = s.st := rfl
@[simp] theorem State.advance_variant : s.advance.variant = s.variant := rfl
@[simp] theorem State.advance_quanta : s.advance.quanta = s.quanta := rfl
@[simp] theorem State.advance_now : s.advance.now = s.now := rfl
@[simp] theorem State.advance_keys : s.advance.keys = s.keys := rfl
@[simp] theorem State.advance_rnd : s.advance.rnd = s.rnd := rfl
@[simp] theorem State.advance_result : s.advance.result = s.result := rfl
@[simp] theorem State.advance_script : s.advance.script = s.script := rfl
@[simp] theorem State.advance_draws : s.advance.draws = s.draws := rfl

/-! ## `skipIf` -/

@[simp] theorem State.skipIf_v (c : Bool) : (s.skipIf c).v = s.v := rfl
@[simp] theorem State.skipIf_index (c : Bool) : (s.skipIf c).index = s.index := rfl
@[simp] theorem State.skipIf_pc (c : Bool) : (s.skipIf c).pc = if c then s.pc + 2 else s.pc := rfl
@[simp] theorem State.skipIf_stack (c : Bool) : (s.skipIf c).stack = s.stack := rfl
@[simp] theorem State.skipIf_mem (c : Bool) : (s.skipIf c).mem = s.mem := rfl
@[simp] theorem State.skipIf_fb (c : Bool) : (s.skipIf c).fb = s.fb := rfl
@[simp] theorem State.skipIf_dt (c : Bool) : (s.skipIf c).dt = s.dt := rfl
@[simp] theorem State.skipIf_st (c : Bool) : (s.skipIf c).st = s.st := rfl
@[simp] theorem State.skipIf_variant (c : Bool) : (s.skipIf c).variant = s.variant := rfl
@[simp] theorem State.skipIf_quanta (c : Bool) : (s.skipIf c).quanta = s.quanta := rfl
@[simp] theorem State.skipIf_now (c : Bool) : (s.skipIf c).now = s.now := rfl
@[simp] theorem State.skipIf_keys (c : Bool) : (s.skipIf c).keys = s.keys := rfl
@[simp] theorem State.skipIf_rnd (c : Bool) : (s.skipIf c).rnd = s.rnd := rfl
@[simp] theorem State.skipIf_result (c : Bool) : (s.skipIf c).result = s.result := rfl
@[simp] theorem State.skipIf_script (c : Bool) : (s.skipIf c).script = s.script := rfl
@[simp] theorem State.skipIf_draws (c : Bool) : (s.skipIf c).draws = s.draws := rfl

/-! ## `rewind` -/

@[simp] theorem State.rewind_v : s.rewind.v = s.v := rfl
@[simp] theorem State.rewind_index : s.rewind.index = s.index := rfl
@[simp] theorem State.rewind_pc : s.rewind.pc = s.pc - 2 := rfl
@[simp] theorem State.rewind_stack : s.rewind.stack = s.stack := rfl
@[simp] theorem State.rewind_mem : s.rewind.mem = s.mem := rfl
@[simp] theorem State.rewind_fb : s.rewind.fb = s.fb := rfl
@[simp] theorem State.rewind_dt : s.rewind.dt = s.dt := rfl
@[simp] theorem State.rewind_st : s.rewind.st = s.st := rfl
@[simp] theorem State.rewind_variant : s.rewind.variant = s.variant := rfl
@[simp] theorem State.rewind_quanta : s.rewind.quanta = s.quanta := rfl
@[simp] theorem State.rewind_now : s.rewind.now = s.now := rfl
@[simp] theorem State.rewind_keys : s.rewind.keys = s.keys := rfl
@[simp] theorem State.rewind_rnd : s.rewind.rnd = s.rnd := rfl
@[simp] theorem State.rewind_result : s.rewind.result = s.result := rfl
@[simp] theorem State.rewind_script : s.rewind.script = s.script := rfl
@[simp] theorem State.rewind_draws : s.rewind.draws = s.draws := rfl

/-! ## `jump` -/

@[simp] theorem State.jump_v (w : Word) : (s.jump w).v = s.v := rfl
@[simp] theorem State.jump_index (w : Word) : (s.jump w).index = s.index := rfl
@[simp] theorem State.jump_pc (w : Word) : (s.jump w).pc = w := rfl
@[simp] theorem State.jump_stack (w : Word) : (s.jump w).stack = s.stack := rfl
@[simp] theorem State.jump_mem (w : Word) : (s.jump w).mem = s.mem := rfl
@[simp] theorem State.jump_fb (w : Word) : (s.jump w).fb = s.fb := rfl
@[simp] theorem State.jump_dt (w : Word) : (s.jump w).dt = s.dt := rfl
@[simp] theorem State.jump_st (w : Word) : (s.jump w).st = s.st := rfl
@[simp] theorem State.jump_variant (w : Word) : (s.jump w).variant = s.variant := rfl
@[simp] theorem State.jump_quanta (w : Word) : (s.jump w).quanta = s.quanta := rfl
@[simp] theorem State.jump_now (w : Word) : (s.jump w).now = s.now := rfl
@[simp] theorem State.jump_keys (w : Word) : (s.jump w).keys = s.keys := rfl
@[simp] theorem State.jump_rnd (w : Word) : (s.jump w).rnd = s.rnd := rfl
@[simp] theorem State.jump_result (w : Word) : (s.jump w).result = s.result := rfl
@[simp] theorem State.jump_script (w : Word) : (s.jump w).script = s.script := rfl
@[simp] theorem State.jump_draws (w : Word) : (s.jump w).draws = s.draws := rfl

/-! ## `sample` -/

@[simp] theorem State.sample_v : s.sample.v = s.v := rfl
@[simp] theorem State.sample_index : s.sample.index = s.index := rfl
@[simp] theorem State.sample_pc : s.sample.pc = s.pc := rfl
@[simp] theorem State.sample_stack : s.sample.stack = s.stack := rfl
@[simp] theorem State.sample_mem : s.sample.mem = s.mem := rfl
@[simp] theorem State.sample_fb : s.sample.fb = s.fb := rfl
@[simp] theorem State.sample_dt : s.sample.dt = s.dt := rfl
@[simp] theorem State.sample_st : s.sample.st = s.st := rfl
@[simp] theorem State.sample_variant : s.sample.variant = s.variant := rfl
@[simp] theorem State.sample_quanta : s.sample.quanta = s.quanta := rfl
@[simp] theorem State.sample_now : s.sample.now = s.now + s.nextInput.elapsed := rfl
@[simp] theorem State.sample_keys : s.sample.keys = s.nextInput.keys := rfl
@[simp] theorem State.sample_rnd : s.sample.rnd = s.nextInput.rnd := rfl
@[simp] theorem State.sample_result : s.sample.result = s.result := rfl
@[simp] theorem State.sample_script : s.sample.script = s.script.tail := rfl
@[simp] theorem State.sample_draws : s.sample.draws = s.draws + 1 := rfl

/-! ## `withFetchWord` -/

@[simp] theorem State.withFetchWord_v (nbits w : Nat) : (s.withFetchWord nbits w).v = s.v := rfl
@[simp] theorem State.withFetchWord_index (nbits w : Nat) : (s.withFetchWord nbits w).index = s.index := rfl
@[simp] theorem State.withFetchWord_pc (nbits w : Nat) : (s.withFetchWord nbits w).pc = s.pc := rfl
@[simp] theorem State.withFetchWord_stack (nbits w : Nat) : (s.withFetchWord nbits w).stack = s.stack := rfl
@[simp] theorem State.withFetchWord_mem (nbits w : Nat) : (s.withFetchWord nbits w).mem = storeWordAt s.mem s.pc.toNat (BitVec.ofNat 16 (w % 2 ^ nbits)) := rfl
@[simp] theorem State.withFetchWord_fb (nbits w : Nat) : (s.withFetchWord nbits w).fb = s.fb := rfl
@[simp] theorem State.withFetchWord_dt (nbits w : Nat) : (s.withFetchWord nbits w).dt = s.dt := rfl
@[simp] theorem State.withFetchWord_st (nbits w : Nat) : (s.withFetchWord nbits w).st = s.st := rfl
@[simp] theorem State.withFetchWord_variant (nbits w : Nat) : (s.withFetchWord nbits w).variant = s.variant := rfl
@[simp] theorem State.withFetchWord_quanta (nbits w : Nat) : (s.withFetchWord nbits w).quanta = s.quanta := rfl
@[simp] theorem State.withFetchWord_now (nbits w : Nat) : (s.withFetchWord nbits w).now = s.now := rfl
@[simp] theorem State.withFetchWord_keys (nbits w : Nat) : (s.withFetchWord nbits w).keys = s.keys := rfl
@[simp] theorem State.withFetchWord_rnd (nbits w : Nat) : (s.withFetchWord nbits w).rnd = s.rnd := rfl
@[simp] theorem State.withFetchWord_result (nbits w : Nat) : (s.withFetchWord nbits w).result = s.result := rfl
@[simp] theorem State.withFetchWord_script (nbits w : Nat) : (s.withFetchWord nbits w).script = s.script := rfl
@[simp] theorem State.withFetchWord_draws (nbits w : Nat) : (s.withFetchWord nbits w).draws = s.draws := rfl

/-! ## Reading a register -/

theorem State.reg_eq (x : Nibble) : s.reg x = s.v[x.toNat]'x.isLt := rfl

@[simp] theorem State.reg_advance (x : Nibble) : s.advance.reg x = s.reg x := rfl

@[simp] theorem State.reg_skipIf (c : Bool) (x : Nibble) : (s.skipIf c).reg x = s.reg x := rfl

@[simp] theorem State.reg_rewind (x : Nibble) : s.rewind.reg x = s.reg x := rfl

@[simp] theorem State.reg_jump (w : Word) (x : Nibble) : (s.jump w).reg x = s.reg x := rfl

@[simp] theorem State.reg_sample (x : Nibble) : s.sample.reg x = s.reg x := rfl

/-- A register reads the last value written to it, and every other register as before. -/
theorem State.reg_setReg (x r : Nibble) (b : Byte) : (s.setReg x b).reg r = if r = x then b else s.reg r := by
  simp only [State.reg, State.setReg, Vector.getElem_set, BitVec.toNat_inj, eq_comm]

/-- R169: the flag is written last. -/
theorem State.reg_writeResultThenFlag (x r : Nibble) (b flag : Byte) :
    (writeResultThenFlag s x b flag).reg r = if r = 0xF then flag else if r = x then b else s.reg r := by
  simp only [writeResultThenFlag, State.reg_setReg, vfIndex]

/-- Two writes of registers change the register file only. -/
theorem State.writeResultThenFlag_eq (x : Nibble) (b flag : Byte) :
    writeResultThenFlag s x b flag = { s with v := (writeResultThenFlag s x b flag).v } := rfl

theorem State.setReg_eq (x : Nibble) (b : Byte) : s.setReg x b = { s with v := (s.setReg x b).v } := rfl

theorem State.writeLogicResult_A (x : Nibble) (b : Byte) (h : s.variant = .A) :
    writeLogicResult s x b = s.setReg x b := by
  simp only [writeLogicResult, h]

theorem State.writeLogicResult_B (x : Nibble) (b : Byte) (h : s.variant = .B) :
    writeLogicResult s x b = writeResultThenFlag s x b 0x00 := by
  simp only [writeLogicResult, h]

end Sys2Proof.Machine
end

