-- ==== Sys2Proof/Laws/Ops.lean ====
section
/-! SUPPORT. For each shared operation, one lemma that says everything it can do. -/

namespace Sys2Proof.Machine

/-! ## How an instruction ends -/

theorem complete_eq (s : State) : complete s = .next { s with result := .ok } := rfl

theorem raise_eq (r : StepResult) (s : State) : raise r s = .next { s with result := r } := rfl

/-! ## Call stack -/

theorem push_full {s : State} (w : Word) (h : 16 ≤ s.stack.length) : s.push w = none := if_pos h

theorem push_room {s : State} (w : Word) (h : s.stack.length < 16) : s.push w = some { s with stack := w :: s.stack } :=
  if_neg (Nat.not_le.2 h)

theorem pop_empty {s : State} (h : s.stack = []) : s.pop = none := by simp only [State.pop, h]

theorem pop_cons {s : State} {w : Word} {rest : List Word} (h : s.stack = w :: rest) :
    s.pop = some (w, { s with stack := rest }) := by simp only [State.pop, h]

/-! ## Registers -/

@[simp] theorem vfIndex_eq : vfIndex = 0xF := rfl

/-- A block of registers written in ascending order: each takes its byte, the others keep theirs. -/
theorem setRegsFrom_getElem (v : Vector Byte 16) (k : Nat) (bs : List Byte) (r : Nat) (hr : r < 16) :
    (setRegsFrom v k bs)[r] = if h : k ≤ r ∧ r < k + bs.length then bs[r - k]'(by omega) else v[r] := by
  induction bs generalizing v k with
  | nil => simp only [setRegsFrom, List.length_nil]; rw [dif_neg (by omega)]
  | cons b bs ih =>
    simp only [setRegsFrom, ih, List.length_cons, Vector.getElem_setIfInBounds]
    by_cases h : k + 1 ≤ r ∧ r < k + 1 + bs.length
    · rw [dif_pos h, dif_pos (by omega)]
      simp only [show r - k = (r - (k + 1)) + 1 from by omega, List.getElem_cons_succ]
    · rw [dif_neg h]
      by_cases hk : k = r
      · subst hk; rw [if_pos rfl, dif_pos (by omega)]; simp
      · rw [if_neg hk, dif_neg (by omega)]

theorem regsUpTo_length (s : State) (x : Nibble) : (regsUpTo s x).length = x.toNat + 1 := by
  have := x.isLt
  simp only [regsUpTo, List.length_take, Vector.length_toList]; omega

theorem regsUpTo_getElem (s : State) (x : Nibble) (k : Nat) (h : k < (regsUpTo s x).length) :
    (regsUpTo s x)[k] = s.v[k]'(by rw [regsUpTo_length] at h; omega) := by
  simp [regsUpTo]

/-! ## Fetch and the step -/

theorem fetch_eq (s : State) : s.fetch =
    if s.pc.toNat + 1 ≤ 0xFFF then some (wordOfBytes (readByte s.mem s.pc.toNat) (readByte s.mem (s.pc.toNat + 1)))
    else none := rfl

theorem fetch_sample (s : State) : s.sample.fetch = s.fetch := rfl

/-- Everything a step can do: the fetch's signal, an unimplemented word, or one instruction. -/
theorem step_cases (s : State) :
    (0xFFF ≤ s.pc.toNat ∧ step s = .next { s.sample with result := .fetchOutOfRange s.pc }) ∨
    (s.pc.toNat < 0xFFF ∧ ∃ op, s.fetch = some op ∧ decodeWord op = none ∧
      step s = .next { s.sample.advance with result := .unimplemented op }) ∨
    (s.pc.toNat < 0xFFF ∧ ∃ op i, s.fetch = some op ∧ decodeWord op = some i ∧ step s = exec i s.sample.advance) := by
  by_cases h : s.pc.toNat + 1 ≤ 0xFFF
  · obtain ⟨op, hop⟩ : ∃ op, s.fetch = some op := ⟨_, if_pos h⟩
    cases hd : decodeWord op with
    | none =>
      exact .inr (.inl ⟨by omega, op, hop, hd, by simp only [step, fetch_sample, hop, hd, raise_eq]⟩)
    | some i =>
      exact .inr (.inr ⟨by omega, op, i, hop, hd, by simp only [step, fetch_sample, hop, hd]⟩)
  · have hop : s.fetch = none := if_neg h
    exact .inl ⟨by omega, by simp only [step, fetch_sample, hop, raise_eq, State.sample_pc]⟩

/-- A word placed by `withFetchWord` is the word the next step fetches. -/
theorem fetch_withFetchWord (s : State) (nbits w : Nat) (h : s.pc.toNat + 1 ≤ 0xFFF) :
    (s.withFetchWord nbits w).fetch = some (BitVec.ofNat 16 (w % 2 ^ nbits)) := by
  have hb : ∀ op, (bytesOfWord op).length = 2 := fun _ => rfl
  simp only [fetch_eq, State.withFetchWord_pc, State.withFetchWord_mem, if_pos h, storeWordAt, memWrite_eq, hb]
  rw [if_pos (by omega)]
  simp only [Option.getD_some, readByte_writeBytes, hb]
  rw [dif_pos (by omega), dif_pos (by omega)]
  simp [bytesOfWord]

theorem withFetchWord_wf (s : State) (nbits w : Nat) (h : Memory.wf s.mem) : Memory.wf (s.withFetchWord nbits w).mem := by
  simp only [State.withFetchWord_mem, storeWordAt]
  cases hm : memWrite s.mem s.pc.toNat (bytesOfWord (BitVec.ofNat 16 (w % 2 ^ nbits))) with
  | none => exact h
  | some m => exact memWrite_wf hm h

/-! ## Flags and keys -/

theorem flagByte_toNat (c : Bool) : (flagByte c).toNat = if c then 1 else 0 := by cases c <;> rfl

theorem flagByte_zero_or_one (c : Bool) : flagByte c = 0x00 ∨ flagByte c = 0x01 := by cases c <;> simp [flagByte]

/-- R135: the key picked is held and no lower one is. -/
theorem keyPick_some {keys : Word} {b : Byte} (h : keyPick keys = some b) :
    ∃ k, k < 16 ∧ b = BitVec.ofNat 8 k ∧ keys.getLsbD k = true ∧ ∀ j, j < k → keys.getLsbD j = false := by
  simp only [keyPick, Option.map_eq_some_iff, List.find?_range_eq_some] at h
  obtain ⟨k, ⟨hk, hr, hl⟩, rfl⟩ := h
  exact ⟨k, by simpa using hr, rfl, hk, fun j hj => by simpa using hl j hj⟩

theorem keyPick_none {keys : Word} : keyPick keys = none ↔ keys = 0 := by
  simp only [keyPick, Option.map_eq_none_iff, List.find?_eq_none, List.mem_range, Bool.not_eq_true]
  exact ⟨fun h => BitVec.eq_of_getLsbD_eq fun i hi => by simp [h i hi], fun h => by simp [h]⟩

end Sys2Proof.Machine
end

