-- ==== Sys2Proof/Laws/PerInstr.lean ====
section
/-! SUPPORT. Per instruction: the encoder's word is selected by the instruction's own row of the opcode map (R78). -/

namespace Sys2Proof.Laws.RowMatch

/-- R78: the row of the opcode map of each instruction, columns match and mask. -/
def rowOf : Instr → OpcodeRow
  | .cls => ⟨0x00E0, 0xFFFF⟩
  | .ret => ⟨0x00EE, 0xFFFF⟩
  | .jp _ => ⟨0x1000, 0xF000⟩
  | .call _ => ⟨0x2000, 0xF000⟩
  | .seImm _ _ => ⟨0x3000, 0xF000⟩
  | .sneImm _ _ => ⟨0x4000, 0xF000⟩
  | .seReg _ _ => ⟨0x5000, 0xF000⟩
  | .ldImm _ _ => ⟨0x6000, 0xF000⟩
  | .addImm _ _ => ⟨0x7000, 0xF000⟩
  | .ldReg _ _ => ⟨0x8000, 0xF00F⟩
  | .orReg _ _ => ⟨0x8001, 0xF00F⟩
  | .andReg _ _ => ⟨0x8002, 0xF00F⟩
  | .xorReg _ _ => ⟨0x8003, 0xF00F⟩
  | .addReg _ _ => ⟨0x8004, 0xF00F⟩
  | .sub _ _ => ⟨0x8005, 0xF00F⟩
  | .shr _ _ => ⟨0x8006, 0xF00F⟩
  | .subn _ _ => ⟨0x8007, 0xF00F⟩
  | .shl _ _ => ⟨0x800E, 0xF00F⟩
  | .sneReg _ _ => ⟨0x9000, 0xF000⟩
  | .ldI _ => ⟨0xA000, 0xF000⟩
  | .jpV0 _ => ⟨0xB000, 0xF000⟩
  | .rnd _ _ => ⟨0xC000, 0xF000⟩
  | .drw _ _ _ => ⟨0xD000, 0xF000⟩
  | .skp _ => ⟨0xE09E, 0xF0FF⟩
  | .sknp _ => ⟨0xE0A1, 0xF0FF⟩
  | .ldVxDt _ => ⟨0xF007, 0xF0FF⟩
  | .ldVxK _ => ⟨0xF00A, 0xF0FF⟩
  | .ldDtVx _ => ⟨0xF015, 0xF0FF⟩
  | .ldStVx _ => ⟨0xF018, 0xF0FF⟩
  | .addI _ => ⟨0xF01E, 0xF0FF⟩
  | .ldF _ => ⟨0xF029, 0xF0FF⟩
  | .ldB _ => ⟨0xF033, 0xF0FF⟩
  | .storeRegs _ => ⟨0xF055, 0xF0FF⟩
  | .loadRegs _ => ⟨0xF065, 0xF0FF⟩

/-- The masked word of the instruction is its row's match. -/
def Statement (i : Instr) : Prop := encode i &&& (rowOf i).mask = (rowOf i).pattern

theorem cls : Statement .cls := by unfold Statement; decide
theorem ret : Statement .ret := by unfold Statement; decide
theorem jp (nnn : Addr12) : Statement (.jp nnn) := encodeAddr_and_cat _ _
theorem call (nnn : Addr12) : Statement (.call nnn) := encodeAddr_and_cat _ _
theorem seImm (x : Nibble) (kk : Byte) : Statement (.seImm x kk) := encodeRegImm_and_cat _ _ _
theorem sneImm (x : Nibble) (kk : Byte) : Statement (.sneImm x kk) := encodeRegImm_and_cat _ _ _
theorem seReg (x : Nibble) (y : Nibble) : Statement (.seReg x y) := encodeRegReg_and_cat _ _ _ _
theorem ldImm (x : Nibble) (kk : Byte) : Statement (.ldImm x kk) := encodeRegImm_and_cat _ _ _
theorem addImm (x : Nibble) (kk : Byte) : Statement (.addImm x kk) := encodeRegImm_and_cat _ _ _
theorem ldReg (x : Nibble) (y : Nibble) : Statement (.ldReg x y) := encodeRegReg_and_sel _ _ _ _
theorem orReg (x : Nibble) (y : Nibble) : Statement (.orReg x y) := encodeRegReg_and_sel _ _ _ _
theorem andReg (x : Nibble) (y : Nibble) : Statement (.andReg x y) := encodeRegReg_and_sel _ _ _ _
theorem xorReg (x : Nibble) (y : Nibble) : Statement (.xorReg x y) := encodeRegReg_and_sel _ _ _ _
theorem addReg (x : Nibble) (y : Nibble) : Statement (.addReg x y) := encodeRegReg_and_sel _ _ _ _
theorem sub (x : Nibble) (y : Nibble) : Statement (.sub x y) := encodeRegReg_and_sel _ _ _ _
theorem shr (x : Nibble) (y : Nibble) : Statement (.shr x y) := encodeRegReg_and_sel _ _ _ _
theorem subn (x : Nibble) (y : Nibble) : Statement (.subn x y) := encodeRegReg_and_sel _ _ _ _
theorem shl (x : Nibble) (y : Nibble) : Statement (.shl x y) := encodeRegReg_and_sel _ _ _ _
theorem sneReg (x : Nibble) (y : Nibble) : Statement (.sneReg x y) := encodeRegReg_and_cat _ _ _ _
theorem ldI (nnn : Addr12) : Statement (.ldI nnn) := encodeAddr_and_cat _ _
theorem jpV0 (nnn : Addr12) : Statement (.jpV0 nnn) := encodeAddr_and_cat _ _
theorem rnd (x : Nibble) (kk : Byte) : Statement (.rnd x kk) := encodeRegImm_and_cat _ _ _
theorem drw (x : Nibble) (y : Nibble) (n : Nibble) : Statement (.drw x y n) := encodeRegReg_and_cat _ _ _ _
theorem skp (x : Nibble) : Statement (.skp x) := encodeRegImm_and_sel _ _ _
theorem sknp (x : Nibble) : Statement (.sknp x) := encodeRegImm_and_sel _ _ _
theorem ldVxDt (x : Nibble) : Statement (.ldVxDt x) := encodeRegImm_and_sel _ _ _
theorem ldVxK (x : Nibble) : Statement (.ldVxK x) := encodeRegImm_and_sel _ _ _
theorem ldDtVx (x : Nibble) : Statement (.ldDtVx x) := encodeRegImm_and_sel _ _ _
theorem ldStVx (x : Nibble) : Statement (.ldStVx x) := encodeRegImm_and_sel _ _ _
theorem addI (x : Nibble) : Statement (.addI x) := encodeRegImm_and_sel _ _ _
theorem ldF (x : Nibble) : Statement (.ldF x) := encodeRegImm_and_sel _ _ _
theorem ldB (x : Nibble) : Statement (.ldB x) := encodeRegImm_and_sel _ _ _
theorem storeRegs (x : Nibble) : Statement (.storeRegs x) := encodeRegImm_and_sel _ _ _
theorem loadRegs (x : Nibble) : Statement (.loadRegs x) := encodeRegImm_and_sel _ _ _

end Sys2Proof.Laws.RowMatch
end

