-- ==== Sys2Proof/Tests/Slice0.lean ====
section
/-! SUPPORT. Small tests of one step each, with expected results from 95_test_vectors.md (named "section #row"), decode
tests with words written out from the opcode map (R78), the WellFormed smoke tests, and a witness for every obligation
that has hypotheses. -/

namespace Sys2Proof.Tests

open Sys2Proof Sys2Proof.Machine Sys2Proof.Claims

/-! ## Helpers -/

/-- The default start state of the vectors: the reset state with `Q` = 1, Variant A. -/
def base : State := { State.reset with quanta := 1 }

/-- The same under Variant B. -/
def baseB : State := { base with variant := .B }

/-- A state with some registers set. -/
def setRegs (s : State) (rs : List (Nibble × Byte)) : State := rs.foldl (fun t r => t.setReg r.1 r.2) s

/-- A state with some bytes of memory set. -/
def poke (s : State) (a : Nat) (bs : List Byte) : State := { s with mem := writeBytes s.mem a bs }

/-- A state with one pixel lit. -/
def light (s : State) (y x : Nat) : State := { s with fb := togglePixel s.fb y x }

/-- The next state of an outcome, if it has one. -/
def nextOf (o : Host.Outcome State Fault Refusal) : Option State :=
  match o with
  | .next t => some t
  | .fault _ => none
  | .refused _ => none

/-- The state after one step that runs the word `op` at `PC` under the given inputs. -/
def after (s : State) (op : Nat) (now : Nat := 0) (keys : Word := 0) (rnd : Byte := 0) : Option State :=
  nextOf (step { s.withFetchWord 16 op with script := [⟨now - s.now, keys, rnd⟩] })

/-- `p` holds of the next state, and there is one. -/
def holdsNext (o : Host.Outcome State Fault Refusal) (p : State → Bool) : Bool :=
  match nextOf o with
  | some t => p t
  | none => false

theorem next_of_holds {o : Host.Outcome State Fault Refusal} {p : State → Prop} [DecidablePred p]
    (h : holdsNext o (fun t => decide (p t)) = true) : ∃ t, o = .next t ∧ p t := by
  cases o with
  | next t => exact ⟨t, rfl, by simpa [holdsNext, nextOf] using h⟩
  | fault r => cases r
  | refused r => simp [holdsNext, nextOf] at h

theorem exists_next_of {o : Host.Outcome State Fault Refusal} (h : (nextOf o).isSome = true) : ∃ t, o = .next t := by
  cases o with
  | next t => exact ⟨t, rfl⟩
  | fault r => cases r
  | refused r => simp [nextOf] at h

/-- The invariant as a check over the lists (deciding a quantifier over words would try every word). -/
def invCheck (s : State) : Bool :=
  decide (s.pc.toNat ≤ 0x10FE) && decide (s.stack.length ≤ stackDepth) && s.stack.all (fun w => decide (w.toNat ≤ 0x1000)) &&
    decide (Memory.wf s.mem) && decide (s.dt.wf s.quanta s.now) && decide (s.st.wf s.quanta s.now) && decide (1 ≤ s.quanta)

theorem inv_of_check {s : State} (h : invCheck s = true) : s.Inv := by
  simp only [invCheck, Bool.and_eq_true, decide_eq_true_eq, List.all_eq_true] at h
  obtain ⟨⟨⟨⟨⟨⟨h1, h2⟩, h3⟩, h4⟩, h5⟩, h6⟩, h7⟩ := h
  exact ⟨h1, h2, h3, h4, h5, h6, h7⟩

/-! ## Decoding: one word per constructor, written out from the opcode map (R78) -/

theorem test_decode_fixed_and_addr :
    decodeWord 0x00E0 = some .cls ∧ decodeWord 0x00EE = some .ret ∧ decodeWord 0x1ABC = some (.jp 0xABC) ∧
      decodeWord 0x2210 = some (.call 0x210) ∧ decodeWord 0xA300 = some (.ldI 0x300) ∧
      decodeWord 0xB3C4 = some (.jpV0 0x3C4) := by decide

theorem test_decode_reg_imm :
    decodeWord 0x3342 = some (.seImm 0x3 0x42) ∧ decodeWord 0x4E17 = some (.sneImm 0xE 0x17) ∧
      decodeWord 0x6A05 = some (.ldImm 0xA 0x05) ∧ decodeWord 0x71FF = some (.addImm 0x1 0xFF) ∧
      decodeWord 0xC30F = some (.rnd 0x3 0x0F) := by decide

theorem test_decode_reg_reg :
    decodeWord 0x5120 = some (.seReg 0x1 0x2) ∧ decodeWord 0x9120 = some (.sneReg 0x1 0x2) ∧
      decodeWord 0x8120 = some (.ldReg 0x1 0x2) ∧ decodeWord 0x8011 = some (.orReg 0x0 0x1) ∧
      decodeWord 0x8A32 = some (.andReg 0xA 0x3) ∧ decodeWord 0x8553 = some (.xorReg 0x5 0x5) ∧
      decodeWord 0x8F14 = some (.addReg 0xF 0x1) ∧ decodeWord 0x8015 = some (.sub 0x0 0x1) ∧
      decodeWord 0x8126 = some (.shr 0x1 0x2) ∧ decodeWord 0x8017 = some (.subn 0x0 0x1) ∧
      decodeWord 0x812E = some (.shl 0x1 0x2) ∧ decodeWord 0xD127 = some (.drw 0x1 0x2 0x7) := by decide

theorem test_decode_reg_sel :
    decodeWord 0xE29E = some (.skp 0x2) ∧ decodeWord 0xE2A1 = some (.sknp 0x2) ∧ decodeWord 0xF607 = some (.ldVxDt 0x6) ∧
      decodeWord 0xF50A = some (.ldVxK 0x5) ∧ decodeWord 0xFA15 = some (.ldDtVx 0xA) ∧
      decodeWord 0xF118 = some (.ldStVx 0x1) ∧ decodeWord 0xFA1E = some (.addI 0xA) ∧
      decodeWord 0xF429 = some (.ldF 0x4) ∧ decodeWord 0xF133 = some (.ldB 0x1) ∧
      decodeWord 0xF255 = some (.storeRegs 0x2) ∧ decodeWord 0xF265 = some (.loadRegs 0x2) := by decide

/-- R71: the low nibble of categories 5 and 9 is ignored. -/
theorem test_decode_ignored_nibble :
    decodeWord 0x512F = some (.seReg 0x1 0x2) ∧ decodeWord 0x9127 = some (.sneReg 0x1 0x2) := by decide

/-- R72, and 2.8 #1 to #8. -/
theorem test_decode_unimplemented :
    decodeWord 0x0000 = none ∧ decodeWord 0x00E1 = none ∧ decodeWord 0x01E0 = none ∧ decodeWord 0x0FEE = none ∧
      decodeWord 0x8128 = none ∧ decodeWord 0x812F = none ∧ decodeWord 0xE5FF = none ∧ decodeWord 0xE29F = none ∧
      decodeWord 0xF000 = none ∧ decodeWord 0xF175 = none ∧ decodeWord 0xF185 = none ∧ decodeWord 0xF130 = none := by
  decide

theorem test_decode_bytes :
    decodeBytes [0x6A, 0x05, 0xFA] = .ok (.ldImm 0xA 0x05, [0xFA]) ∧
      decodeBytes [0xE5, 0xFF] = .error (.unimplemented 0xE5FF) ∧ decodeBytes [0x6A] = .error .truncated ∧
      decodeTableWord 16 0x6A05 = some (.ldImm 0xA 0x05) := by decide

/-- R71: the encoder writes the canonical form. -/
theorem test_encode_canonical : encode (.seReg 0x1 0x2) = 0x5120 ∧ encode (.drw 0x1 0x2 0x7) = 0xD127 := by decide

/-! ## WellFormed refuses -/

theorem test_wellFormedWord_refuses :
    wellFormedWord 0x0000 = false ∧ wellFormedWord 0x8128 = false ∧ wellFormedWord 0xE5FF = false ∧
      wellFormedWord 0xF175 = false ∧ wellFormedWord 0x512F = true := by decide

/-- R232: 3585 bytes are too many, 3584 are not. -/
theorem test_wellFormedImage_refuses :
    wellFormedImage (List.replicate 3585 0x00) = false ∧ wellFormedImage (List.replicate 3584 0x00) = true := by
  constructor <;> rw [wellFormedImage, List.length_replicate] <;> rfl

/-! ## Memory and reset -/

/-- R42: the first byte of glyph 0, the first and last bytes of glyph F; the bytes around the table are 0 (R31). -/
theorem test_font :
    readByte [] 0x050 = 0xF0 ∧ readByte [] 0x09B = 0xF0 ∧ readByte [] 0x09F = 0x80 ∧ readByte [] 0x04F = 0x00 ∧
      readByte [] 0x0A0 = 0x00 ∧ fontData.length = 80 := by decide

/-- Writing what an unlisted address reads as removes the cell. -/
theorem test_memory_canonical :
    writeByte (writeByte [] 0x300 0x01) 0x300 0x00 = [] ∧ writeByte [] 0x050 0xF0 = [] ∧
      writeByte (writeByte [] 0x300 0x01) 0x2FF 0x02 = [(0x2FF, 0x02), (0x300, 0x01)] := by decide

theorem test_reset_image :
    (powerOn [0x6A, 0x05] 1 7).toOption.map
      (fun s => (readByte s.mem 0x200, readByte s.mem 0x201, s.variantId, s.dt, s.now))
      = some (0x6A, 0x05, .B, ⟨7, 0⟩, 7) := by decide

/-- The first instruction after reset, whatever the host presents. -/
theorem test_withFetchWord :
    (nextOf (step (State.reset.withFetchWord 16 0x6A05))).map (fun t => (t.reg 0xA, t.pc, t.result))
      = some (0x05, 0x0202, .ok) := by decide

/-! ## Control flow (2.1) -/

theorem test_ret :   -- #3, #2
    (after { base with pc := 0x0500, stack := [0x040A, 0x0206] } 0x00EE).map (fun t => (t.pc, t.stack, t.result))
      = some (0x040A, [0x0206], .ok) ∧
    (after base 0x00EE).map (fun t => (t.pc, t.stack, t.result)) = some (0x0202, [], .stackUnderflow 0x00EE) := by decide

theorem test_jp :   -- #4
    (after base 0x1ABC).map (fun t => (t.pc, t.result)) = some (0x0ABC, .ok) := by decide

theorem test_call :   -- #7, #9
    (after { base with pc := 0x0204 } 0x2210).map (fun t => (t.pc, t.stack, t.result))
      = some (0x0210, [0x0206], .ok) ∧
    (after { base with pc := 0x0204, stack := List.replicate 16 0x0300 } 0x2210).map
      (fun t => (t.pc, t.stack.length, t.result)) = some (0x0206, 16, .stackOverflow 0x2210) := by decide

theorem test_se_imm :   -- #10, #11
    (after (setRegs base [(0x3, 0x42)]) 0x3342).map (·.pc) = some 0x0204 ∧
    (after (setRegs base [(0x3, 0x43)]) 0x3342).map (·.pc) = some 0x0202 := by decide

theorem test_sne_imm :   -- #12, #13
    (after (setRegs base [(0x3, 0x43)]) 0x4342).map (·.pc) = some 0x0204 ∧
    (after (setRegs base [(0x3, 0x42)]) 0x4342).map (·.pc) = some 0x0202 := by decide

theorem test_se_reg :   -- #15, #16
    (after (setRegs base [(0x1, 0x7F), (0x2, 0x80)]) 0x5120).map (·.pc) = some 0x0202 ∧
    (after (setRegs base [(0x1, 0x7F), (0x2, 0x7F)]) 0x512F).map (·.pc) = some 0x0204 := by decide

theorem test_sne_reg :   -- #19, #20
    (after (setRegs base [(0x1, 0x7F), (0x2, 0x7F)]) 0x9120).map (·.pc) = some 0x0202 ∧
    (after (setRegs base [(0x1, 0x7F), (0x2, 0x80)]) 0x9127).map (·.pc) = some 0x0204 := by decide

theorem test_jp_v0 :   -- #21, #22
    (after (setRegs base [(0x0, 0x04), (0x3, 0x10)]) 0xB300).map (·.pc) = some 0x0304 ∧
    (after (setRegs baseB [(0x0, 0x04), (0x3, 0x10)]) 0xB300).map (·.pc) = some 0x0310 := by decide

theorem test_jp_v0_not_masked :   -- #23
    (after (setRegs base [(0x0, 0xFF)]) 0xBFFF).map (·.pc) = some 0x10FE := by decide

/-! ## Immediate and index (2.2) -/

theorem test_ld_imm :   -- #2
    (after base 0x6FFF).map (fun t => (t.reg 0xF, t.pc)) = some (0xFF, 0x0202) := by decide

theorem test_add_imm :   -- #4, #6
    (after (setRegs base [(0x1, 0xFF)]) 0x7101).map (fun t => (t.reg 0x1, t.reg 0xF)) = some (0x00, 0x00) ∧
    (after (setRegs base [(0xF, 0xFF)]) 0x7F02).map (fun t => t.reg 0xF) = some 0x01 := by decide

theorem test_ld_i :   -- #8
    (after base 0xAFFF).map (·.index) = some 0x0FFF := by decide

theorem test_add_i :   -- #10, #12
    (after (setRegs { base with index := 0x0F00 } [(0x0, 0xFF), (0xF, 0x01)]) 0xF01E).map
      (fun t => (t.index, t.reg 0xF)) = some (0x0FFF, 0x00) ∧
    (after (setRegs { base with index := 0xFFFF } [(0x0, 0x01)]) 0xF01E).map
      (fun t => (t.index, t.reg 0xF)) = some (0x0000, 0x01) := by decide

theorem test_add_i_alias :   -- #13
    (after (setRegs { base with index := 0x0100 } [(0xF, 0x07)]) 0xFF1E).map
      (fun t => (t.index, t.reg 0xF)) = some (0x0107, 0x00) := by decide

theorem test_ld_f :   -- #16, #19
    (after (setRegs base [(0x4, 0x0A)]) 0xF429).map (·.index) = some 0x0082 ∧
    (after (setRegs base [(0x4, 0xFF)]) 0xF429).map (·.index) = some 0x054B := by decide

/-! ## Display (2.3) -/

theorem test_cls :   -- #1
    (after (light (light (setRegs base [(0xF, 0x01)]) 5 7) 31 63) 0x00E0).map
      (fun t => (t.fb, t.reg 0xF)) = some (Vector.replicate 32 0, 0x01) := by decide

theorem test_drw_glyph :   -- #2: bit x of a row is column x, so `F` at columns 0 to 3 is 0xF and `1001` is 0x9
    (after { base with index := 0x0050 } 0xD005).map (fun t => (t.fb.toList.take 6, t.reg 0xF))
      = some ([0xF, 0x9, 0x9, 0x9, 0xF, 0x0], 0x00) := by decide

theorem test_drw_collision_and_wrap :   -- #3, #6
    (after (light (poke { base with index := 0x0300 } 0x300 [0xC0]) 0 1) 0xD011).map
      (fun t => (pixel t.fb 0 0, pixel t.fb 0 1, t.reg 0xF)) = some (true, false, 0x01) ∧
    (after (setRegs (poke { base with index := 0x0300 } 0x300 [0x80]) [(0x0, 0x45), (0x1, 0x21)]) 0xD011).map
      (fun t => (pixel t.fb 1 5, t.reg 0xF)) = some (true, 0x00) := by decide

theorem test_drw_clips :   -- #7, #8
    (after (setRegs (poke { base with index := 0x0300 } 0x300 [0xFF]) [(0x0, 0x3C)]) 0xD011).map
      (fun t => t.fb.toList.take 2) = some [0xF000000000000000, 0x0] ∧
    (after (setRegs (poke { base with index := 0x0300 } 0x300 [0x80, 0x80, 0x80]) [(0x1, 0x1E)]) 0xD013).map
      (fun t => (pixel t.fb 30 0, pixel t.fb 31 0, pixel t.fb 0 0)) = some (true, true, false) := by decide

theorem test_drw_bounds :   -- #5, #11
    (after (setRegs { base with index := 0xFFFF } [(0xF, 0x01)]) 0xD010).map (fun t => (t.reg 0xF, t.result))
      = some (0x00, .ok) ∧
    (after (setRegs { base with index := 0x0FFF } [(0xF, 0x01)]) 0xD012).map
      (fun t => (t.reg 0xF, t.pc, t.result)) = some (0x01, 0x0202, .addressOutOfRange 0xD012) := by decide

/-! ## Keyboard and random (2.4) -/

theorem test_skp :   -- #1, #3
    (after (setRegs { base with pc := 0x0220 } [(0x2, 0x0A)]) 0xE29E 0 0x0400).map (·.pc) = some 0x0224 ∧
    (after (setRegs { base with pc := 0x0220 } [(0x2, 0x1A)]) 0xE29E 0 0xFFFF).map (·.pc) = some 0x0222 := by decide

theorem test_sknp :   -- #5, #6
    (after (setRegs { base with pc := 0x0220 } [(0x2, 0x0A)]) 0xE2A1 0 0x0400).map (·.pc) = some 0x0222 ∧
    (after (setRegs { base with pc := 0x0220 } [(0x2, 0xFF)]) 0xE2A1 0 0xFFFF).map (·.pc) = some 0x0224 := by decide

theorem test_key_wait :   -- #7, #8
    (after (setRegs { base with pc := 0x0204 } [(0x5, 0x77)]) 0xF50A).map (fun t => (t.pc, t.reg 0x5, t.result))
      = some (0x0204, 0x77, .ok) ∧
    (after (setRegs { base with pc := 0x0204 } [(0x5, 0x77)]) 0xF50A 0 0x0088).map (fun t => (t.pc, t.reg 0x5))
      = some (0x0206, 0x03) := by decide

theorem test_rnd :   -- #11, #12
    (after base 0xC30F 0 0 0xB7).map (fun t => t.reg 0x3) = some 0x07 ∧
    (after (setRegs base [(0x3, 0x55)]) 0xC300 0 0 0xFF).map (fun t => t.reg 0x3) = some 0x00 := by decide

/-! ## Memory (2.5) -/

theorem test_ld_b :   -- #2, #6
    (after (setRegs { base with index := 0x0300 } [(0x1, 0xFF)]) 0xF133).map
      (fun t => (readBytes t.mem 0x300 3, t.index)) = some ([0x02, 0x05, 0x05], 0x0300) ∧
    (after (setRegs { base with index := 0x0FFE } [(0x1, 0x7B)]) 0xF133).map
      (fun t => (readBytes t.mem 0xFFE 2, t.result)) = some ([0x00, 0x00], .addressOutOfRange 0xF133) := by decide

theorem test_block_store :   -- #7, #8
    (after (setRegs { base with index := 0x0400 } [(0x0, 0x11), (0x1, 0x22), (0x2, 0x33), (0x3, 0x44)]) 0xF255).map
      (fun t => (readBytes t.mem 0x400 4, t.index)) = some ([0x11, 0x22, 0x33, 0x00], 0x0403) ∧
    (after (setRegs { baseB with index := 0x0400 } [(0x0, 0x11), (0x1, 0x22), (0x2, 0x33), (0x3, 0x44)]) 0xF255).map
      (fun t => (readBytes t.mem 0x400 4, t.index)) = some ([0x11, 0x22, 0x33, 0x00], 0x0400) := by decide

theorem test_block_store_bounds :   -- #9, #10
    (after (setRegs { base with index := 0x0FFF } [(0x0, 0xAB)]) 0xF055).map
      (fun t => (readByte t.mem 0xFFF, t.index)) = some (0xAB, 0x1000) ∧
    (after (setRegs { base with index := 0x0FFF } [(0x0, 0xAB), (0x1, 0xCD)]) 0xF155).map
      (fun t => (readByte t.mem 0xFFF, t.index, t.result)) = some (0x00, 0x0FFF, .addressOutOfRange 0xF155) := by decide

theorem test_block_load :   -- #13, #15
    (after (setRegs (poke { base with index := 0x0300 } 0x300 [0x00, 0x05, 0x05, 0x09]) [(0x3, 0x77)]) 0xF265).map
      (fun t => (t.v.toList.take 4, t.index)) = some ([0x00, 0x05, 0x05, 0x77], 0x0303) ∧
    (after (setRegs { base with index := 0x0FFE } [(0x0, 0x01), (0x1, 0x02), (0x2, 0x03)]) 0xF265).map
      (fun t => (t.v.toList.take 3, t.index, t.result))
      = some ([0x01, 0x02, 0x03], 0x0FFE, .addressOutOfRange 0xF265) := by decide

theorem test_block_load_font :   -- #16
    (after { baseB with index := 0x0050 } 0xF465).map (fun t => (t.v.toList.take 6, t.index))
      = some ([0xF0, 0x90, 0x90, 0x90, 0xF0, 0x00], 0x0050) := by decide

/-! ## Timers (2.6) -/

theorem test_ld_dt :   -- #1, #8
    (after (setRegs base [(0xA, 0x3C)]) 0xFA15 100).map (·.dt) = some ⟨100, 60⟩ ∧
    (after { base with dt := ⟨100, 60⟩, now := 110 } 0xF015 120).map (·.dt) = some ⟨120, 0⟩ := by decide

theorem test_ld_st :   -- #2
    (after (setRegs base [(0x1, 0x08)]) 0xF118 50).map
      (fun t => (t.st, t.soundActive 50, t.soundActive 57, t.soundActive 58))
      = some (⟨50, 8⟩, true, true, false) := by decide

theorem test_read_dt :   -- #4, #12
    (after { base with dt := ⟨100, 60⟩, now := 100 } 0xF607 130).map (fun t => t.reg 0x6) = some 0x1E ∧
    (after { base with quanta := 1000, dt := ⟨5000, 60000⟩, now := 5000 } 0xF607 5001).map (fun t => t.reg 0x6)
      = some 0x3B := by decide

theorem test_read_dt_late :   -- #6, #14
    (after (setRegs { base with dt := ⟨100, 60⟩, now := 100 } [(0x6, 0x09)]) 0xF607 1000).map (fun t => t.reg 0x6)
      = some 0x00 ∧
    (after { base with quanta := 1000, dt := ⟨5000, 60000⟩, now := 5000 } 0xF607 64001).map
      (fun t => (t.reg 0x6, t.dt.expired 64001, t.dt.expired 65000)) = some (0x00, false, true) := by decide

/-! ## ALU (2.7) -/

theorem test_ld_reg :   -- #1, #2
    (after (setRegs base [(0x2, 0x9C)]) 0x8120).map (fun t => (t.reg 0x1, t.reg 0x2)) = some (0x9C, 0x9C) ∧
    (after (setRegs base [(0x2, 0x9C)]) 0x8F20).map (fun t => t.reg 0xF) = some 0x9C := by decide

theorem test_or :   -- #5, #7
    (after (setRegs base [(0xF, 0xF0), (0x1, 0x0F)]) 0x8F11).map (fun t => t.reg 0xF) = some 0xFF ∧
    (after (setRegs baseB [(0x0, 0x02), (0xF, 0x01)]) 0x80F1).map (fun t => (t.reg 0x0, t.reg 0xF))
      = some (0x03, 0x00) := by decide

theorem test_and :   -- #8, #9
    (after (setRegs base [(0x0, 0xF3), (0x1, 0x3C), (0xF, 0x01)]) 0x8012).map (fun t => (t.reg 0x0, t.reg 0xF))
      = some (0x30, 0x01) ∧
    (after (setRegs baseB [(0x0, 0xF3), (0x1, 0x3C), (0xF, 0x01)]) 0x8012).map (fun t => (t.reg 0x0, t.reg 0xF))
      = some (0x30, 0x00) := by decide

theorem test_xor :   -- #10, #11
    (after (setRegs base [(0x0, 0xF3), (0x1, 0x3C), (0xF, 0x01)]) 0x8013).map (fun t => (t.reg 0x0, t.reg 0xF))
      = some (0xCF, 0x01) ∧
    (after (setRegs baseB [(0x0, 0xF3), (0x1, 0x3C), (0xF, 0x01)]) 0x8013).map (fun t => (t.reg 0x0, t.reg 0xF))
      = some (0xCF, 0x00) := by decide

theorem test_add_reg :   -- #15, #17
    (after (setRegs base [(0x0, 0xFF), (0x1, 0x01)]) 0x8014).map (fun t => (t.reg 0x0, t.reg 0xF))
      = some (0x00, 0x01) ∧
    (after (setRegs base [(0xF, 0x01), (0x1, 0x02)]) 0x8F14).map (fun t => t.reg 0xF) = some 0x00 := by decide

theorem test_sub :   -- #21, #24
    (after (setRegs base [(0x0, 0x01), (0x1, 0x02), (0xF, 0x01)]) 0x8015).map (fun t => (t.reg 0x0, t.reg 0xF))
      = some (0xFF, 0x00) ∧
    (after (setRegs base [(0xF, 0x05), (0x1, 0x03)]) 0x8F15).map (fun t => t.reg 0xF) = some 0x01 := by decide

theorem test_subn :   -- #28, #29
    (after (setRegs base [(0x0, 0x03), (0x1, 0x02), (0xF, 0x01)]) 0x8017).map (fun t => (t.reg 0x0, t.reg 0xF))
      = some (0xFF, 0x00) ∧
    (after (setRegs base [(0x0, 0x33), (0x1, 0x33)]) 0x8017).map (fun t => (t.reg 0x0, t.reg 0xF))
      = some (0x00, 0x01) := by decide

theorem test_shr :   -- #31, #32
    (after (setRegs base [(0x1, 0x02), (0x2, 0x05)]) 0x8126).map (fun t => (t.reg 0x1, t.reg 0x2, t.reg 0xF))
      = some (0x02, 0x05, 0x01) ∧
    (after (setRegs baseB [(0x1, 0x02), (0x2, 0x05)]) 0x8126).map (fun t => (t.reg 0x1, t.reg 0x2, t.reg 0xF))
      = some (0x01, 0x05, 0x00) := by decide

theorem test_shl :   -- #38, #39
    (after (setRegs base [(0x1, 0x81), (0x2, 0x40)]) 0x812E).map (fun t => (t.reg 0x1, t.reg 0xF))
      = some (0x80, 0x00) ∧
    (after (setRegs baseB [(0x1, 0x81), (0x2, 0x40)]) 0x812E).map (fun t => (t.reg 0x1, t.reg 0xF))
      = some (0x02, 0x01) := by decide

/-! ## Signals and fetch (2.8) -/

theorem test_unimplemented :   -- #1, #3
    (after base 0x0000).map (fun t => (t.pc, t.result)) = some (0x0202, .unimplemented 0x0000) ∧
    (after (light base 0 0) 0x01E0).map (fun t => (pixel t.fb 0 0, t.result))
      = some (true, .unimplemented 0x01E0) := by decide

theorem test_fetch :   -- #9, #11, #12
    (nextOf (step { base with pc := 0x0FFF })).map (fun t => (t.pc, t.result)) = some (0x0FFF, .fetchOutOfRange 0x0FFF) ∧
    (after { base with pc := 0x0FFE } 0x6A05).map (fun t => (t.pc, t.reg 0xA)) = some (0x1000, 0x05) ∧
    (after { base with pc := 0x0301 } 0x6A05).map (fun t => (t.pc, t.reg 0xA)) = some (0x0303, 0x05) := by decide

/-! ## Witnesses: for every obligation with hypotheses, concrete values that meet them, at the boundary of each clause -/

theorem witness_ResetLeavesRegistersTimersAndDisplay :
    State.reset.now ≤ 0 ∧ pixel State.reset.fb 31 63 = false ∧ State.reset.soundActive 1 = false := by decide

/-- The longest image; and the clauses at the first and last byte of the font, of the image and of the zero ranges. -/
theorem witness_ResetLoadsFontImageAndVariant :
    (List.replicate 3584 0x00 : List Byte).length ≤ 3584 ∧
    (powerOn [0x12, 0x34] 1 5).toOption.map (fun s => (readByte s.mem 0x050, readByte s.mem 0x09F, readByte s.mem 0x200,
      readByte s.mem 0x201, s.variant)) = some (glyphRow 0 0, glyphRow 15 4, 0x12, 0x34, .B) ∧
    (powerOn [0x12, 0x34] 1 5).toOption.map (fun s => [0x000, 0x04F, 0x0A0, 0x1FF, 0x202, 0xFFF].map (readByte s.mem))
      = some [0x00, 0x00, 0x00, 0x00, 0x00, 0x00] ∧
    (powerOn [] 0 5).toOption.map (fun s => (s.variant, s.dt, s.soundActive 5)) = some (.A, ⟨5, 0⟩, false) ∧
    (powerOn [] 2 5).toOption.map (·.variant) = some .A := by
  refine ⟨?_, by decide⟩
  rw [List.length_replicate]

theorem witness_ResetRejectsOversizedImage :
    3584 < (List.replicate 3585 0x00 : List Byte).length ∧ ¬ 3584 < (List.replicate 3584 0x00 : List Byte).length := by
  rw [List.length_replicate, List.length_replicate]
  decide

theorem witness_ResetDiffersOnlyByItsInputs : ∃ s, powerOn [0x12, 0x34] 1 5 = .ok s := ⟨_, rfl⟩

theorem witness_EveryResetMeetsInvariant : ∃ s, powerOn [0x12, 0x34] 1 5 = .ok s := ⟨_, rfl⟩

/-- A state at every bound of the invariant, running a jump. -/
def atBounds : State :=
  { base with
    pc := 0x0FFE, stack := List.replicate 16 0x1000, mem := [(0xFFE, 0x1F), (0xFFF, 0xFE)]
    dt := ⟨7, 255⟩, st := ⟨7, 255⟩, now := 7, script := [⟨0, 0, 0⟩] }

theorem witness_StepKeepsStateInvariant :
    atBounds.Inv ∧ (∃ t, step atBounds = .next t ∧ t.Inv ∧ t.result = .ok) ∧
    ({ base with pc := 0x10FE } : State).Inv ∧
    ∃ t, step { base with pc := 0x10FE } = .next t ∧ t.Inv ∧ t.result = .fetchOutOfRange 0x10FE := by
  obtain ⟨t, h, hi, hr⟩ := next_of_holds (o := step atBounds) (p := fun t => invCheck t = true ∧ t.result = .ok) (by decide)
  obtain ⟨u, h', hi', hr'⟩ := next_of_holds (o := step { base with pc := 0x10FE })
    (p := fun t => invCheck t = true ∧ t.result = .fetchOutOfRange 0x10FE) (by decide)
  exact ⟨inv_of_check (by decide), ⟨t, h, inv_of_check hi, hr⟩, inv_of_check (by decide), u, h', inv_of_check hi', hr'⟩

theorem witness_StepRunsDecodedInstruction :
    atBounds.pc.toNat + 1 ≤ 0xFFF ∧
    decodeWord (readByte atBounds.mem atBounds.pc.toNat ++ readByte atBounds.mem (atBounds.pc.toNat + 1))
      = some (.jp 0xFFE) := by decide

theorem witness_FetchIsBigEndian :
    atBounds.pc.toNat + 1 ≤ 0xFFF ∧ atBounds.fetch = some 0x1FFE := by decide

theorem witness_FetchOutOfRangeRepeatsForever :
    0xFFF ≤ ({ base with pc := 0x0FFF } : State).pc.toNat ∧
    (nextOf (Host.Core.run Sys2Proof.core 2 { base with pc := 0x0FFF })).map (fun t => (t.pc, t.result))
      = some (0x0FFF, .fetchOutOfRange 0x0FFF) ∧
    (nextOf (Host.Core.run Sys2Proof.core 1 { base with pc := 0xFFFF })).map (fun t => (t.pc, t.result))
      = some (0xFFFF, .fetchOutOfRange 0xFFFF) := by decide

theorem witness_UnimplementedWordIsReported :
    ((base.withFetchWord 16 0xF175).fetch = some 0xF175 ∧ wellFormedWord 0xF175 = false) ∧
    (atBounds.fetch = some 0x1FFE ∧ wellFormedWord 0x1FFE = true ∧ ∃ t, step atBounds = .next t) :=
  ⟨by decide, by decide, by decide, exists_next_of (by decide)⟩

/-- One step with each of the five codes. -/
theorem witness_SignalsArePrecise :
    (∃ t, step (base.withFetchWord 16 0x0000) = .next t ∧ t.result.code = 1) ∧
    (∃ t, step (base.withFetchWord 16 0x00EE) = .next t ∧ t.result.code = 2) ∧
    (∃ t, step { base.withFetchWord 16 0x2200 with stack := List.replicate 16 0x0202 } = .next t ∧ t.result.code = 3) ∧
    (∃ t, step { base.withFetchWord 16 0xF033 with index := 0x0FFE } = .next t ∧ t.result.code = 4) ∧
    ∃ t, step { base with pc := 0x0FFF } = .next t ∧ t.result.code = 5 :=
  ⟨next_of_holds (by decide), next_of_holds (by decide), next_of_holds (by decide), next_of_holds (by decide),
    next_of_holds (by decide)⟩

/-- An instruction that completes, and each signal with the check behind it at its boundary. -/
theorem witness_SignalsComeFromTheirInstructions :
    (∃ t, exec (.ldImm 0x1 0x2) base = .next t ∧ t.result = .ok) ∧
    (∃ t, exec .ret base = .next t ∧ t.result = .stackUnderflow 0x00EE) ∧
    (∃ t, exec (.call 0x210) { base with stack := List.replicate 16 0x0202 } = .next t ∧ t.result = .stackOverflow 0x2210) ∧
    (∃ t, exec (.drw 0x0 0x1 0x2) { base with index := 0x0FFF } = .next t ∧ t.result = .addressOutOfRange 0xD012) ∧
    (∃ t, exec (.ldB 0x1) { base with index := 0x0FFE } = .next t ∧ t.result = .addressOutOfRange 0xF133) ∧
    (∃ t, exec (.storeRegs 0xF) { base with index := 0x0FF1 } = .next t ∧ t.result = .addressOutOfRange 0xFF55) ∧
    ∃ t, exec (.loadRegs 0x2) { base with index := 0x0FFE } = .next t ∧ t.result = .addressOutOfRange 0xF265 :=
  ⟨next_of_holds (by decide), next_of_holds (by decide), next_of_holds (by decide), next_of_holds (by decide),
    next_of_holds (by decide), next_of_holds (by decide), next_of_holds (by decide)⟩

theorem witness_EncodeUndoesDecode :
    (decodeWord 0x512F = some (.seReg 0x1 0x2) ∧ encode (.seReg 0x1 0x2) = 0x5120) ∧
    (decodeWord 0x9127 = some (.sneReg 0x1 0x2) ∧ encode (.sneReg 0x1 0x2) = 0x9120) ∧
    (decodeWord 0xD01F = some (.drw 0x0 0x1 0xF) ∧ encode (.drw 0x0 0x1 0xF) = 0xD01F) := by decide

theorem witness_DecoderFollowsOpcodeMap :
    ((⟨0x5000, 0xF000⟩ : OpcodeRow) ∈ opcodeRows ∧ (⟨0x5000, 0xF000⟩ : OpcodeRow).selects 0x512F = true ∧
      decodeWord 0x512F = some (.seReg 0x1 0x2)) ∧
    decodeWord 0x00E1 = none ∧ decodeWord 0x8008 = none ∧ decodeWord 0xE09F = none ∧ decodeWord 0xF000 = none := by decide

theorem witness_ReturnFromSubroutine :
    ({ base with stack := [0x0206, 0x040A] } : State).stack = 0x0206 :: [0x040A] ∧ base.stack = [] := by decide

theorem witness_CallSubroutine :
    ({ base with stack := List.replicate 15 0x0202 } : State).stack.length < 16 ∧
    ({ base with stack := List.replicate 16 0x0202 } : State).stack.length = 16 := by decide

theorem witness_JumpWithOffset :
    base.variant = .A ∧ baseB.variant = .B ∧
    (nextOf (exec (.jpV0 0xFFF) (setRegs base [(0x0, 0xFF)]))).map (·.pc) = some 0x10FE ∧
    (nextOf (exec (.jpV0 0xFFF) (setRegs baseB [(0xF, 0xFF)]))).map (·.pc) = some 0x10FE := by decide

theorem witness_LogicOperations : base.variant = .A ∧ baseB.variant = .B := by decide

/-- A borrow, none, and equal operands. -/
theorem witness_SubtractBothWays :
    ((base.reg 0x0).toNat = 0 ∧ (base.reg 0x1).toNat = 0) ∧
    ((setRegs base [(0x1, 0xFF)]).reg 0x0).toNat = 0 ∧ ((setRegs base [(0x1, 0xFF)]).reg 0x1).toNat = 255 := by decide

/-- The source under each variant, at the values where the shifted-out bits are 1. -/
theorem witness_ShiftBothWays :
    let a := setRegs base [(0x1, 0x02), (0x2, 0x81)]
    let b := setRegs baseB [(0x1, 0xFF), (0x2, 0x00)]
    ((a.variant = .A → 129 = (a.reg 0x2).toNat) ∧ (a.variant = .B → 129 = (a.reg 0x1).toNat)) ∧
    ((b.variant = .A → 255 = (b.reg 0x2).toNat) ∧ (b.variant = .B → 255 = (b.reg 0x1).toNat)) := by decide

theorem witness_FlagIsZeroOrOne :
    (writesFlag base.variant (.addReg 0xF 0x1) = true ∧
      ∃ t, exec (.addReg 0xF 0x1) (setRegs base [(0xF, 0xFF), (0x1, 0x02)]) = .next t ∧ t.result = .ok ∧ t.reg 0xF = 0x01) ∧
    (writesFlag baseB.variant (.orReg 0xF 0x1) = true ∧
      ∃ t, exec (.orReg 0xF 0x1) (setRegs baseB [(0xF, 0xFF)]) = .next t ∧ t.result = .ok ∧ t.reg 0xF = 0x00) ∧
    (writesFlag base.variant (.drw 0x0 0x0 0x5) = true ∧
      ∃ t, exec (.drw 0x0 0x0 0x5) { base with index := 0x0050 } = .next t ∧ t.result = .ok ∧ t.reg 0xF = 0x00) :=
  ⟨⟨by decide, next_of_holds (by decide)⟩, ⟨by decide, next_of_holds (by decide)⟩,
    ⟨by decide, next_of_holds (by decide)⟩⟩

/-- An identifier of 0x10 with every key held, and the last key there is. -/
theorem witness_KeySkips :
    let s := setRegs { base with keys := 0xFFFF } [(0x2, 0x10), (0x3, 0x0F)]
    ((s.reg 0x2).toNat ≥ 0x10) ∧ ((s.reg 0x3).toNat ≤ 0x0F ∧ s.keys.getLsbD (s.reg 0x3).toNat = true) := by decide

theorem witness_KeyWait :
    base.keys = 0 ∧ ({ base with keys := 0x8000 } : State).keys ≠ 0 ∧
    (nextOf (exec (.ldVxK 0x5) { base with keys := 0x8000 })).map (fun t => t.reg 0x5) = some 0x0F := by decide

/-- The largest duration, at the moment of arming and one quantum before the first unit is over. -/
theorem witness_ReadDelayTimer :
    let s : State := { base with quanta := 1000, dt := ⟨5, 255000⟩, now := 5 }
    (1 ≤ s.quanta ∧ s.dt.wf s.quanta s.now) ∧
    (nextOf (exec (.ldVxDt 0x6) s)).map (fun t => t.reg 0x6) = some 0xFF ∧
    (nextOf (exec (.ldVxDt 0x6) { s with now := 6 })).map (fun t => t.reg 0x6) = some 0xFE := by decide

theorem witness_TimersDecay :
    (5 : Nat) ≤ 5 ∧ (1 ≤ 1000 ∧ (⟨5, 255000⟩ : Timer).duration ≤ 255 * 1000) ∧
    (armTimer (255 * 1000) 5).units 1000 5 = 255 ∧ (armTimer (255 * 1000) 5).units 1000 1005 = 254 ∧
    (armTimer (255 * 1000) 5).expired 255005 = true ∧ ({ base with st := ⟨50, 8⟩ } : State).soundActive 57 = true := by
  decide

/-- The last byte of memory, alone and with one byte beyond it. -/
theorem witness_MemoryAccessesAreExactOrNone :
    ((1 ≤ 2 ∧ 0xFFF < 0xFFF + 2 - 1) ∧ memRead [] 0xFFF 2 = none) ∧
    ((1 ≤ 1 ∧ 0xFFF + 1 - 1 ≤ 0xFFF) ∧ memRead [] 0xFFF 1 = some [0x00]) ∧ memRead [] 0xFFFF 0 = some [] ∧
    (([0x01, 0x02] : List Byte) ≠ [] ∧ 0xFFF < 0xFFF + ([0x01, 0x02] : List Byte).length - 1 ∧
      memWrite [] 0xFFF [0x01, 0x02] = none) ∧
    (([0x01] : List Byte) ≠ [] ∧ 0xFFF + ([0x01] : List Byte).length - 1 ≤ 0xFFF ∧
      memWrite [] 0xFFF [0x01] = some [(0xFFF, 0x01)] ∧ Memory.wf [] ∧ Memory.wf [(0xFFF, 0x01)]) := by decide

theorem witness_StoreDecimalDigits :
    ({ base with index := 0x0FFD } : State).index.toNat + 2 ≤ 0xFFF ∧
    0xFFF < ({ base with index := 0x0FFE } : State).index.toNat + 2 ∧
    (nextOf (exec (.ldB 0x1) (setRegs { base with index := 0x0FFD } [(0x1, 0x7B)]))).map (fun t => readBytes t.mem 0xFFC 4)
      = some [0x00, 0x01, 0x02, 0x03] := by decide

theorem witness_BlockStore :
    (({ base with index := 0x0FF0 } : State).index.toNat + (0xF : Nibble).toNat ≤ 0xFFF ∧ base.variant = .A ∧
      (nextOf (exec (.storeRegs 0xF) { base with index := 0x0FF0 })).map (·.index) = some 0x1000) ∧
    (({ baseB with index := 0x0FFF } : State).index.toNat + (0x0 : Nibble).toNat ≤ 0xFFF ∧ baseB.variant = .B ∧
      (nextOf (exec (.storeRegs 0x0) { baseB with index := 0x0FFF })).map (·.index) = some 0x0FFF) ∧
    0xFFF < ({ base with index := 0x0FF1 } : State).index.toNat + (0xF : Nibble).toNat := by decide

theorem witness_BlockLoad :
    (({ base with index := 0x0FF0 } : State).index.toNat + (0xF : Nibble).toNat ≤ 0xFFF ∧ base.variant = .A ∧
      (nextOf (exec (.loadRegs 0xF) { base with index := 0x0FF0 })).map (·.index) = some 0x1000) ∧
    (({ baseB with index := 0x0FFF } : State).index.toNat + (0x0 : Nibble).toNat ≤ 0xFFF ∧ baseB.variant = .B ∧
      (nextOf (exec (.loadRegs 0x0) { baseB with index := 0x0FFF })).map (·.index) = some 0x0FFF) ∧
    0xFFF < ({ base with index := 0x0FF1 } : State).index.toNat + (0xF : Nibble).toNat := by decide

theorem witness_BlockLoadUndoesBlockStore :
    ({ base with index := 0x0FF0 } : State).index.toNat + (0xF : Nibble).toNat ≤ 0xFFF := by decide

theorem witness_StoreIsSeenByNextFetch :
    let s : State := setRegs { base with pc := 0x0FFE, index := 0x0FFE } [(0x0, 0x6A), (0x1, 0x05)]
    (1 ≤ (0x1 : Nibble).toNat ∧ s.index = s.pc ∧ s.pc.toNat + (0x1 : Nibble).toNat ≤ 0xFFF) ∧
    (nextOf (exec (.storeRegs 0x1) s)).map (·.fetch) = some (some 0x6A05) := by decide

/-- `n` = 0 anywhere, the last byte of memory, one byte beyond, and the last pixel of the display. -/
theorem witness_DrawSprite :
    ((0x0 : Nibble).toNat = 0 ∧ ∃ t, exec (.drw 0x0 0x0 0x0) { base with index := 0xFFFF } = .next t ∧ t.reg 0xF = 0x00) ∧
    ((({ base with index := 0x0FFF } : State).index.toNat + (0x1 : Nibble).toNat - 1 ≤ 0xFFF) ∧
      ∃ t, exec (.drw 0x0 0x1 0x1) (light (setRegs { base with index := 0x0FFF, mem := [(0xFFF, 0x80)] }
        [(0x0, 0xFF), (0x1, 0xFF)]) 31 63) = .next t ∧ pixel t.fb 31 63 = false ∧ t.reg 0xF = 0x01) ∧
    (1 ≤ (0x2 : Nibble).toNat ∧ 0xFFF < ({ base with index := 0x0FFF } : State).index.toNat + (0x2 : Nibble).toNat - 1) :=
  ⟨⟨by decide, next_of_holds (by decide)⟩, ⟨by decide, next_of_holds (by decide)⟩, by decide⟩

/-- A sprite that just fits, with a 1-bit and without one. -/
theorem witness_DrawingTwiceRestoresDisplay :
    (56 + 7 ≤ 63 ∧ 31 + ([0xFF] : List Byte).length ≤ 32 ∧ (drawSprite clearDisplay 56 31 [0xFF]).collision = false ∧
      (drawSprite (drawSprite clearDisplay 56 31 [0xFF]).fb 56 31 [0xFF]).collision = true) ∧
    ((drawSprite clearDisplay 56 31 [0x00]).collision = false ∧
      (drawSprite (drawSprite clearDisplay 56 31 [0x00]).fb 56 31 [0x00]).collision = false) := by decide

theorem witness_SnapshotShowsEveryPixel :
    (31 < 32 ∧ 63 < 64) ∧ (light base 31 63).snapshot.getLsbD 2047 = true ∧
    (light base 31 63).snapshot.getLsbD 2046 = false ∧ (light base 0 0).snapshot.getLsbD 0 = true := by decide +kernel

theorem witness_OnlyDestinationAndFlagRegistersChange :
    (isDestination 0x2 (.addReg 0x1 0x2) = false ∧ ∃ t, exec (.addReg 0x1 0x2) base = .next t ∧ t.reg 0x2 = 0x00) ∧
    (isDestination 0xF (.addImm 0x1 0x2) = false ∧ writesFlag base.variant (.addImm 0x1 0x2) = false ∧
      ∃ t, exec (.addImm 0x1 0x2) base = .next t ∧ t.reg 0xF = 0x00) ∧
    (isDestination 0x3 (.loadRegs 0x2) = false ∧ isDestination 0x2 (.loadRegs 0x2) = true) :=
  ⟨⟨by decide, next_of_holds (by decide)⟩, ⟨by decide, by decide, next_of_holds (by decide)⟩, by decide⟩

theorem witness_OnlyStoredBytesChange :
    (storesMemory (.loadRegs 0x2) = false ∧ ∃ t, exec (.loadRegs 0x2) base = .next t) ∧
    (∃ t, exec (.ldB 0x1) (setRegs { base with index := 0x0300, mem := [(0x2FF, 0x09), (0x303, 0x09)] } [(0x1, 0xFF)])
      = .next t ∧ readByte t.mem 0x2FF = 0x09 ∧ readByte t.mem 0x303 = 0x09 ∧ readByte t.mem 0x302 = 0x05) ∧
    ∃ t, exec (.storeRegs 0x1) (setRegs { base with index := 0x0300, mem := [(0x2FF, 0x09), (0x302, 0x09)] } [(0x1, 0xFF)])
      = .next t ∧ readByte t.mem 0x2FF = 0x09 ∧ readByte t.mem 0x302 = 0x09 ∧ readByte t.mem 0x301 = 0xFF :=
  ⟨⟨by decide, exists_next_of (by decide)⟩, next_of_holds (by decide), next_of_holds (by decide)⟩

theorem witness_OnlyNamedInstructionsWriteIndexAndPc :
    (writesIndex baseB.variant (.storeRegs 0x1) = false ∧ writesPc (.storeRegs 0x1) = false ∧
      ∃ t, exec (.storeRegs 0x1) { baseB with index := 0x0300 } = .next t ∧ t.index = 0x0300 ∧ t.pc = 0x0200) ∧
    writesIndex base.variant (.storeRegs 0x1) = true :=
  ⟨⟨by decide, by decide, next_of_holds (by decide)⟩, by decide⟩

theorem witness_OnlyNamedInstructionsWriteStackDisplayTimers :
    (∃ t, exec (.jp 0x300) { light base 3 4 with stack := [0x0202], dt := ⟨0, 9⟩, st := ⟨0, 9⟩ } = .next t ∧
      t.stack = [0x0202] ∧ pixel t.fb 3 4 = true ∧ t.dt = ⟨0, 9⟩ ∧ t.st = ⟨0, 9⟩) ∧
    ((∀ nnn, Instr.jp 0x300 ≠ .call nnn) ∧ Instr.jp 0x300 ≠ .ret ∧ Instr.jp 0x300 ≠ .cls ∧
      (∀ x y n, Instr.jp 0x300 ≠ .drw x y n) ∧ (∀ x, Instr.jp 0x300 ≠ .ldDtVx x) ∧ ∀ x, Instr.jp 0x300 ≠ .ldStVx x) :=
  ⟨next_of_holds (by decide), by simp⟩

theorem witness_VariantAndInputsAreNeverWritten :
    (∃ t, step { baseB with script := [⟨3, 0x0008, 0xB7⟩] } = .next t ∧ t.variant = .B ∧ t.now = 3 ∧ t.keys = 0x0008 ∧
      t.rnd = 0xB7) ∧
    ∃ t, exec (.rnd 0x1 0xFF) { base with rnd := 0xA5 } = .next t ∧ t.rnd = 0xA5 :=
  ⟨next_of_holds (by decide), next_of_holds (by decide)⟩

theorem witness_VariantsAgreeOutsideEightEncodings :
    variantSensitive (.addReg 0x0 0x1) = false ∧
    ∃ t, exec (.addReg 0x0 0x1) { base with variant := .A } = .next t ∧ t.result = .ok :=
  ⟨by decide, next_of_holds (by decide)⟩

theorem witness_ReturnResumesAfterCall :
    ({ base with stack := List.replicate 15 0x0202 } : State).stack.length < 16 ∧
    ∃ t, exec (.call 0x210) { base with stack := List.replicate 15 0x0202 } = .next t ∧
      ({ base with pc := 0x0300, stack := 0x0200 :: List.replicate 15 0x0202 } : State).stack = t.stack :=
  ⟨by decide, next_of_holds (by decide)⟩

theorem witness_SelfJumpIsFixedPoint :
    (base.withFetchWord 16 0x1200).ended ∧ atBounds.ended ∧ ¬ base.ended := by decide

end Sys2Proof.Tests
end

section
/-! SUPPORT and PROOFS for the statements on reset (10_state.md R26 to R32): expired timers, the registers and the display
at `State.reset`, what memory holds once an image is loaded, and the two obligations assembled from these. -/

namespace Sys2Proof.Machine

open Sys2Proof.Claims

/-! ## A timer armed with no duration (R151, R153, R157) -/

@[simp] theorem Timer.remaining_zero_duration (a t : Nat) : Timer.remaining ⟨a, 0⟩ t = 0 := Nat.zero_sub _

@[simp] theorem Timer.units_zero_duration (a q t : Nat) : Timer.units ⟨a, 0⟩ q t = 0 := by simp [Timer.units]

/-- R29: timers as every reset leaves them are expired at every time, and give no sound. -/
theorem State.timers_expired_of_zero_duration {s : State} {a : Nat} (hdt : s.dt = ⟨a, 0⟩) (hst : s.st = ⟨a, 0⟩)
    (t : Nat) : s.dt.units s.quanta t = 0 ∧ s.st.units s.quanta t = 0 ∧ s.soundActive t = false := by
  simp [State.soundActive, Timer.expired, hdt, hst]

/-! ## Registers and display at reset (R27, R30) -/

@[simp] theorem State.reset_reg (x : Nibble) : State.reset.reg x = 0x00 := by simp [State.reg_eq, State.reset]

theorem pixel_reset (y x : Nat) : pixel State.reset.fb y x = false := pixel_clearDisplay y x

/-! ## Memory after reset (R31, R230, R231) -/

/-- R42: the font table lists the glyphs one after another, five rows each. -/
theorem fontData_glyph : ∀ d < 16, ∀ i < 5, fontData.getD (5 * d + i) 0x00 = glyphRow d i := by decide

/-- The image covers its own range, and every other address reads as its reset contents. -/
theorem readByte_loadImage (image : List Byte) (a : Nat) :
    readByte (loadImage image) a =
      if h : 0x200 ≤ a ∧ a < 0x200 + image.length then image[a - 0x200]'(by omega) else unlisted a :=
  readByte_writeBytes [] 0x200 image a

theorem readByte_loadImage_image (image : List Byte) (k : Nat) (hk : k < image.length) :
    readByte (loadImage image) (0x200 + k) = image[k] := by
  rw [readByte_loadImage, dif_pos (by omega)]
  simp

theorem readByte_loadImage_outside (image : List Byte) {a : Nat} (h : ¬ (0x200 ≤ a ∧ a < 0x200 + image.length)) :
    readByte (loadImage image) a = unlisted a := by
  rw [readByte_loadImage, dif_neg h]

theorem readByte_loadImage_font (image : List Byte) {d i : Nat} (hd : d < 16) (hi : i < 5) :
    readByte (loadImage image) (0x050 + 5 * d + i) = glyphRow d i := by
  have hoff : 0x050 + 5 * d + i - 0x050 = 5 * d + i := by omega
  rw [readByte_loadImage_outside image (by omega), unlisted_font (by omega), hoff, fontData_glyph d hd i hi]

/-! ## Reset with an image that fits (R230, R32) -/

theorem powerOn_of_fits {image : List Byte} (h : image.length ≤ 3584) (sel now : Nat) :
    powerOn image sel now = .ok { State.reset with
      mem := loadImage image
      variant := latchVariant sel
      now := now
      dt := ⟨now, 0⟩
      st := ⟨now, 0⟩ } := by
  simp only [powerOn, wellFormedImage, h, decide_true, if_true]

theorem latchVariant_one : latchVariant 1 = .B := rfl

theorem latchVariant_other {sel : Nat} (h : sel ≠ 1) : latchVariant sel = .A := if_neg h

/-! ## The obligations -/

/-- Settles O1: the timers are armed with no duration, and the framebuffer is the cleared one. -/
theorem resetLeavesRegistersTimersAndDisplay : Obligations.ResetLeavesRegistersTimersAndDisplay :=
  ⟨rfl, State.reset_reg, rfl, rfl, rfl, rfl,
    fun t _ => State.timers_expired_of_zero_duration rfl rfl t,
    fun y x _ _ => pixel_reset y x⟩

/-- Settles O2: the image that fits makes `powerOn` answer a state; its memory is read through `readByte_loadImage`, in the
image's range, in the font table and outside both. -/
theorem resetLoadsFontImageAndVariant : Obligations.ResetLoadsFontImageAndVariant := by
  intro image sel now hfits
  refine ⟨_, powerOn_of_fits hfits sel now, rfl, State.reset_reg, rfl, rfl, rfl, rfl, ?timers, ?display, ?font, ?image,
    ?zero, ?variantB, ?variantA⟩
  case timers => exact fun t _ => State.timers_expired_of_zero_duration rfl rfl t
  case display => exact fun y x _ _ => pixel_reset y x
  case font => exact fun d i hd hi => readByte_loadImage_font image hd hi
  case image => exact readByte_loadImage_image image
  case zero =>
    intro a _ hfont himage
    exact (readByte_loadImage_outside image himage).trans (unlisted_zero hfont)
  case variantB => rintro rfl; exact latchVariant_one
  case variantA => exact latchVariant_other

end Sys2Proof.Machine
end

section
/-! PROOFS for the statement on the fetched word (20_memory.md R43): the word a fetch answers where both its bytes lie in
memory, and the obligation read off from its two bytes. -/

namespace Sys2Proof.Machine

/-- R43: where both bytes lie in memory, the fetch answers the word made of them, the byte at `PC` first. -/
theorem fetch_of_inRange {s : State} (h : s.pc.toNat + 1 ≤ 0xFFF) :
    s.fetch = some (wordOfBytes (readByte s.mem s.pc.toNat) (readByte s.mem (s.pc.toNat + 1))) := by
  rw [fetch_eq, if_pos h]

/-- Settles O9: the fetched word is built from the two bytes, and `highByte` and `lowByte` take them out of it again. -/
theorem fetchIsBigEndian : Obligations.FetchIsBigEndian :=
  fun _ h => ⟨_, fetch_of_inRange h, highByte_wordOfBytes _ _, lowByte_wordOfBytes _ _⟩

end Sys2Proof.Machine
end

section
/-! SUPPORT and PROOFS for the statements on control transfer (40_control_flow.md R100 to R107): the decoded words, one
equation per instruction and outcome for `exec`, and the obligations assembled from these. -/

namespace Sys2Proof.Machine

open Sys2Proof.Claims

/-! ## The words decode (R66, R67, R71) -/

section DecodedWords
variable (x y ignored : Nibble) (kk : Byte) (nnn : Addr12)

theorem decodeWord_jp : decodeWord (encodeAddr 0x1 nnn) = some (.jp nnn) := by simp [decodeWord]

theorem decodeWord_call : decodeWord (encodeAddr 0x2 nnn) = some (.call nnn) := by simp [decodeWord]

theorem decodeWord_jpV0 : decodeWord (encodeAddr 0xB nnn) = some (.jpV0 nnn) := by simp [decodeWord]

theorem decodeWord_seImm : decodeWord (encodeRegImm 0x3 x kk) = some (.seImm x kk) := by simp [decodeWord]

theorem decodeWord_sneImm : decodeWord (encodeRegImm 0x4 x kk) = some (.sneImm x kk) := by simp [decodeWord]

theorem decodeWord_seReg : decodeWord (encodeRegReg 0x5 x y ignored) = some (.seReg x y) := by simp [decodeWord]

theorem decodeWord_sneReg : decodeWord (encodeRegReg 0x9 x y ignored) = some (.sneReg x y) := by simp [decodeWord]

end DecodedWords

/-! ## Targets of jumps (R63, R107) -/

theorem zext16_toNat (nnn : Addr12) : (zext16 nnn).toNat = nnn.toNat :=
  BitVec.toNat_setWidth_of_le (by decide)

/-- R107: the sum of address and offset is taken in 16 bits, not masked to 12. -/
theorem zext16_add_toNat (nnn : Addr12) (b : Byte) :
    (zext16 nnn + b.setWidth 16).toNat = (nnn.toNat + b.toNat) % 65536 := by
  rw [BitVec.toNat_add, zext16_toNat, BitVec.toNat_setWidth_of_le (by decide)]

theorem jumpOffset_A {s : State} (h : s.variant = .A) (nnn : Addr12) : jumpOffset s nnn = s.reg 0x0 := by
  simp only [jumpOffset, h]

theorem jumpOffset_B {s : State} (h : s.variant = .B) (nnn : Addr12) :
    jumpOffset s nnn = s.reg (nnn.extractLsb' 8 4) := by
  simp only [jumpOffset, h]

/-! ## What each instruction answers (R100 to R102, R107) -/

theorem exec_ret_cons {s : State} {target : Word} {rest : List Word} (h : s.stack = target :: rest) :
    exec .ret s = .next { s with pc := target, stack := rest, result := .ok } := by
  simp only [exec, execRet, pop_cons h, complete_eq, State.jump]

theorem exec_ret_empty {s : State} (h : s.stack = []) :
    exec .ret s = .next { s with result := .stackUnderflow (encode .ret) } := by
  simp only [exec, execRet, pop_empty h, raise_eq]

theorem exec_jp (nnn : Addr12) (s : State) : exec (.jp nnn) s = .next { s with pc := zext16 nnn, result := .ok } := rfl

theorem exec_call_room (nnn : Addr12) {s : State} (h : s.stack.length < 16) :
    exec (.call nnn) s = .next { s with pc := zext16 nnn, stack := s.pc :: s.stack, result := .ok } := by
  simp only [exec, execCall, push_room s.pc h, complete_eq, State.jump]

theorem exec_call_full (nnn : Addr12) {s : State} (h : 16 ≤ s.stack.length) :
    exec (.call nnn) s = .next { s with result := .stackOverflow (encode (.call nnn)) } := by
  simp only [exec, execCall, push_full s.pc h, raise_eq]

theorem exec_jpV0 (nnn : Addr12) (s : State) : exec (.jpV0 nnn) s =
    .next { s with pc := zext16 nnn + (jumpOffset s nnn).setWidth 16, result := .ok } := rfl

/-! ## The skips (R103 to R106) -/

/-- A completed skip answers the state the statements describe, for any condition that its test decides. -/
theorem complete_skipIf_skips (s : State) {test : Bool} {c : Prop} [Decidable c] (h : test = true ↔ c) :
    ∃ t, complete (s.skipIf test) = .next t ∧ skips s t c := by
  refine ⟨_, complete_eq _, ?_⟩
  simp only [skips, State.skipIf, h]

section Skips
variable (x y : Nibble) (kk : Byte) (s : State)

theorem exec_seImm : exec (.seImm x kk) s = complete (s.skipIf (s.reg x == kk)) := rfl

theorem exec_sneImm : exec (.sneImm x kk) s = complete (s.skipIf (s.reg x != kk)) := rfl

theorem exec_seReg : exec (.seReg x y) s = complete (s.skipIf (s.reg x == s.reg y)) := rfl

theorem exec_sneReg : exec (.sneReg x y) s = complete (s.skipIf (s.reg x != s.reg y)) := rfl

end Skips

/-! ## The obligations -/

/-- Settles O58: CALL leaves its advanced `PC` on top of the stack, and RET takes that entry off again. -/
theorem returnResumesAfterCall : Obligations.ReturnResumesAfterCall :=
  fun nnn _ hroom => ⟨_, exec_call_room nnn hroom, fun _ hstack => exec_ret_cons hstack⟩

/-- Settles O19, by the stack's two shapes. -/
theorem returnFromSubroutine : Obligations.ReturnFromSubroutine :=
  ⟨by decide, fun _ _ _ h => exec_ret_cons h, fun _ h => exec_ret_empty h⟩

/-- Settles O20: the target is the zero-extended address. -/
theorem jumpToAddress : Obligations.JumpToAddress :=
  fun nnn => ⟨decodeWord_jp nnn, fun s => ⟨_, exec_jp nnn s, rfl, zext16_toNat nnn⟩⟩

/-- Settles O21, by whether the stack has room; the word in the signal is the encoder's. -/
theorem callSubroutine : Obligations.CallSubroutine :=
  fun nnn => ⟨decodeWord_call nnn,
    fun _ hroom => ⟨_, exec_call_room nnn hroom, rfl, zext16_toNat nnn⟩,
    fun _ hfull => exec_call_full nnn hfull.ge⟩

/-- Settles O22: the tests `==` and `!=` decide equality with the immediate and its negation. -/
theorem skipOnImmediate : Obligations.SkipOnImmediate := by
  intro x kk
  refine ⟨decodeWord_seImm x kk, decodeWord_sneImm x kk, fun s => ?_⟩
  rw [exec_seImm, exec_sneImm]
  exact ⟨complete_skipIf_skips s beq_iff_eq, complete_skipIf_skips s bne_iff_ne⟩

/-- Settles O23: as for the immediate forms, and the decoder does not read the ignored nibble (R71). -/
theorem skipOnRegisters : Obligations.SkipOnRegisters := by
  intro x y
  refine ⟨fun ignored => ⟨decodeWord_seReg x y ignored, decodeWord_sneReg x y ignored⟩, fun s => ?_⟩
  rw [exec_seReg, exec_sneReg]
  exact ⟨complete_skipIf_skips s beq_iff_eq, complete_skipIf_skips s bne_iff_ne⟩

/-- Settles O24: the variant selects the offset's register, and the sum is the 16-bit one. -/
theorem jumpWithOffset : Obligations.JumpWithOffset := by
  intro nnn
  refine ⟨decodeWord_jpV0 nnn, fun s => ⟨_, exec_jpV0 nnn s, rfl, ?variantA, ?variantB⟩⟩
  case variantA =>
    intro hA
    rw [← jumpOffset_A hA nnn]
    exact zext16_add_toNat nnn _
  case variantB =>
    intro hB
    rw [← jumpOffset_B hB nnn]
    exact zext16_add_toNat nnn _

end Sys2Proof.Machine
end

section
/-! SUPPORT and PROOFS for the statements on the immediate and index instructions (41_immediate_index.md R110 to R114): the
decoded words, the values the instructions compute, one equation per instruction for `exec`, and the obligations assembled
from these. -/

namespace Sys2Proof.Machine

open Sys2Proof.Claims

/-! ## The words decode (R66, R70) -/

section DecodedWords
variable (x : Nibble) (kk : Byte) (nnn : Addr12)

theorem decodeWord_ldImm : decodeWord (encodeRegImm 0x6 x kk) = some (.ldImm x kk) := by simp [decodeWord]

theorem decodeWord_addImm : decodeWord (encodeRegImm 0x7 x kk) = some (.addImm x kk) := by simp [decodeWord]

theorem decodeWord_ldI : decodeWord (encodeAddr 0xA nnn) = some (.ldI nnn) := by simp [decodeWord]

theorem decodeWord_addI : decodeWord (encodeRegImm 0xF x 0x1E) = some (.addI x) := by simp [decodeWord, decodeCatF]

theorem decodeWord_ldF : decodeWord (encodeRegImm 0xF x 0x29) = some (.ldF x) := by simp [decodeWord, decodeCatF]

end DecodedWords

/-! ## The values computed (R111, R113, R114) -/

/-- R111: the 8-bit sum is the exact one modulo 256. -/
theorem byte_add_eq_ofNat (a b : Byte) : a + b = BitVec.ofNat 8 ((a.toNat + b.toNat) % 256) := by
  apply BitVec.eq_of_toNat_eq
  rw [BitVec.toNat_add, BitVec.toNat_ofNat, Nat.mod_mod]

/-- R113: the index keeps the sum modulo 65536, not masked to 12 bits. -/
theorem word_add_byte_toNat (i : Word) (b : Byte) : (i + b.setWidth 16).toNat = (i.toNat + b.toNat) % 65536 := by
  rw [BitVec.toNat_add, BitVec.toNat_setWidth_of_le (by decide)]

theorem indexOverflowFlag_toNat (i : Word) (b : Byte) :
    (indexOverflowFlag i b).toNat = if i.toNat + b.toNat > 0xFFF then 1 else 0 := by
  simp only [indexOverflowFlag, flagByte_toNat, decide_eq_true_eq]

/-- R114: the largest glyph address is 0x54B, so it is never cut to 16 bits. -/
theorem glyphAddress_toNat (b : Byte) : (glyphAddress b).toNat = 0x050 + 5 * b.toNat := by
  have hb : b.toNat < 256 := b.isLt
  exact Nat.mod_eq_of_lt (by simp only [fontBase]; omega)

/-! ## What each instruction answers -/

/-- A completed write of one register answers the state the statements describe. -/
theorem complete_setReg_setsReg (s : State) (x : Nibble) (b : Byte) :
    ∃ t, complete (s.setReg x b) = .next t ∧ setsReg s t x b :=
  ⟨_, complete_eq _, rfl, fun r => s.reg_setReg x r b⟩

section Equations
variable (x : Nibble) (kk : Byte) (nnn : Addr12) (s : State)

theorem exec_ldImm : exec (.ldImm x kk) s = complete (s.setReg x kk) := rfl

theorem exec_addImm : exec (.addImm x kk) s = complete (s.setReg x (s.reg x + kk)) := rfl

theorem exec_ldI : exec (.ldI nnn) s = .next { s with index := zext16 nnn, result := .ok } := rfl

theorem exec_addI : exec (.addI x) s = .next { s with
    v := (s.setReg 0xF (indexOverflowFlag s.index (s.reg x))).v
    index := s.index + (s.reg x).setWidth 16
    result := .ok } := rfl

theorem exec_ldF : exec (.ldF x) s = .next { s with index := glyphAddress (s.reg x), result := .ok } := rfl

end Equations

/-! ## The obligations -/

/-- Settles O25: `VF` is a destination like the others, so one register write is all there is. -/
theorem loadImmediate : Obligations.LoadImmediate :=
  fun x kk => ⟨decodeWord_ldImm x kk, fun s => complete_setReg_setsReg s x kk⟩

/-- Settles O26: as for the load, with the register's own width wrapping the sum. -/
theorem addImmediate : Obligations.AddImmediate := by
  intro x kk
  refine ⟨decodeWord_addImm x kk, fun s => ?_⟩
  rw [exec_addImm, ← byte_add_eq_ofNat]
  exact complete_setReg_setsReg s x _

/-- Settles O27: the index is the zero-extended address. -/
theorem loadIndex : Obligations.LoadIndex :=
  fun nnn => ⟨decodeWord_ldI nnn, fun s => ⟨_, exec_ldI nnn s, rfl, zext16_toNat nnn⟩⟩

/-- Settles O28: sum and flag are computed from the old registers, so the case `x = F` needs no split; only the register
read afterwards is `VF` or another. -/
theorem addToIndex : Obligations.AddToIndex := by
  intro x
  refine ⟨decodeWord_addI x, fun s => ⟨_, exec_addI x s, rfl, word_add_byte_toNat _ _, fun r => ?_⟩⟩
  rw [← indexOverflowFlag_toNat, ← apply_ite BitVec.toNat]
  exact congrArg BitVec.toNat (s.reg_setReg 0xF r _)

/-- Settles O29: the glyph address is exact for every byte. -/
theorem fontGlyphAddress : Obligations.FontGlyphAddress :=
  fun x => ⟨decodeWord_ldF x, fun s => ⟨_, exec_ldF x s, rfl, glyphAddress_toNat _⟩⟩

end Sys2Proof.Machine
end

section
/-! SUPPORT and PROOFS for the statements on the display instructions (42_display.md R120 to R125): the decoded words, the
sprite that DRW reads from memory and its drawing, one equation per instruction and outcome for `exec`, and the obligations
assembled from these. -/

namespace Sys2Proof.Machine

open Sys2Proof.Claims

/-! ## The words decode (R66, R67) -/

theorem decodeWord_cls : decodeWord 0x00E0 = some .cls := by decide

theorem decodeWord_drw (x y n : Nibble) : decodeWord (encodeRegReg 0xD x y n) = some (.drw x y n) := by simp [decodeWord]

/-! ## Flags and sprites in memory (R11, R123) -/

theorem flagByte_eq_one_iff (c : Bool) : flagByte c = 0x01 ↔ c = true := by cases c <;> decide

theorem readBytes_getD (m : List Host.Cell) (a : Nat) {n k : Nat} (h : k < n) (d : Byte) :
    (readBytes m a n).getD k d = readByte m (a + k) := by
  have hk : k < (readBytes m a n).length := by rwa [readBytes_length]
  rw [List.getD_eq_getElem _ _ hk, readBytes_getElem]

/-- R123: the sprite whose rows are the bytes from `a` on has its bit in row `py - oy`, column `px - ox`. -/
theorem spriteBitOf_readBytes (m : List Host.Cell) (a ox oy n py px : Nat) :
    spriteBitOf ox oy py px (readBytes m a n) = spriteBit m a ox oy n py px := by
  rw [spriteBitOf, rowBit, spriteBit, readBytes_length]
  by_cases hrow : oy ≤ py ∧ py < oy + n
  · rw [readBytes_getD m a (show py - oy < n by omega)]
    simp [hrow]
  · have hbody : ¬ (oy ≤ py ∧ py < oy + n ∧ ox ≤ px ∧ px < ox + 8) := fun h => hrow ⟨h.1, h.2.1⟩
    rw [decide_eq_false hrow, decide_eq_false hbody, Bool.false_and, Bool.false_and]

/-! ## The drawing of DRW (R121) -/

/-- R121, R123: the drawing that DRW makes of the `n` bytes at `I`, from the wrapped origin. -/
def drwDrawing (x y n : Nibble) (s : State) : Drawing :=
  drawSprite s.fb ((s.reg x).toNat % 64) ((s.reg y).toNat % 32) (readBytes s.mem s.index.toNat n.toNat)

section Drawing
variable (x y n : Nibble) (s : State)

/-- R123, R125: each pixel is toggled where the sprite has a 1-bit. -/
theorem pixel_drwDrawing {py px : Nat} (hy : py < 32) (hx : px < 64) : pixel (drwDrawing x y n s).fb py px =
    (pixel s.fb py px ^^
      spriteBit s.mem s.index.toNat ((s.reg x).toNat % 64) ((s.reg y).toNat % 32) n.toNat py px) := by
  rw [drwDrawing, pixel_drawSprite _ _ _ _ _ _ hy hx, spriteBitOf_readBytes]

/-- R124: the collision is a lit pixel of the old framebuffer under a 1-bit inside the grid. -/
theorem collision_drwDrawing : (drwDrawing x y n s).collision = true ↔
    ∃ py px, py < 32 ∧ px < 64 ∧ pixel s.fb py px = true ∧
      spriteBit s.mem s.index.toNat ((s.reg x).toNat % 64) ((s.reg y).toNat % 32) n.toNat py px = true := by
  simp only [drwDrawing, collision_drawSprite, spriteBitOf_readBytes, and_comm (a := spriteBit _ _ _ _ _ _ _ = true)]

/-! ## What each instruction answers (R120, R121) -/

theorem exec_cls : exec .cls s = .next { s with fb := clearDisplay, result := .ok } := rfl

variable {n s}

theorem exec_drw_inRange (h : n.toNat = 0 ∨ s.index.toNat + n.toNat ≤ 0x1000) :
    exec (.drw x y n) s = .next { s with
      v := (s.setReg 0xF (flagByte (drwDrawing x y n s).collision)).v
      fb := (drwDrawing x y n s).fb
      result := .ok } := by
  simp only [exec, execDrw, memRead_eq, if_pos h, complete_eq, vfIndex_eq, drwDrawing, State.setReg]

theorem exec_drw_outOfRange (h : ¬ (n.toNat = 0 ∨ s.index.toNat + n.toNat ≤ 0x1000)) :
    exec (.drw x y n) s = .next { s with result := .addressOutOfRange (encode (.drw x y n)) } := by
  simp only [exec, execDrw, memRead_eq, if_neg h, raise_eq]

end Drawing

end Sys2Proof.Machine

/-! ## The obligations

In a namespace of their own: `Sys2Proof.Machine` has functions `clearDisplay` and `drawSprite`. -/

namespace Sys2Proof.Proofs

open Sys2Proof.Machine

/-- Settles O48: the framebuffer is the cleared one. -/
theorem clearDisplay : Obligations.ClearDisplay :=
  ⟨decodeWord_cls, fun s => ⟨_, exec_cls s, rfl, fun y x _ _ => pixel_clearDisplay y x⟩⟩

/-- Settles O49, by the range check; in range, pixels and `VF` are those of the drawing, and `VF` is the only register
written. -/
theorem drawSprite : Obligations.DrawSprite := by
  intro x y n
  refine ⟨decodeWord_drw x y n, fun s hrange => ?inRange, fun s hn hbeyond => ?outOfRange⟩
  case inRange =>
    have hregs := fun r => s.reg_setReg 0xF r (flagByte (drwDrawing x y n s).collision)
    refine ⟨_, exec_drw_inRange x y (by omega), rfl, ?others, ?pixels, ?flagValue, ?flagMeaning⟩
    case others => exact fun r hr => (hregs r).trans (if_neg hr)
    case pixels => exact fun _ _ hy hx => pixel_drwDrawing x y n s hy hx
    case flagValue => exact (hregs 0xF).symm ▸ flagByte_zero_or_one _
    case flagMeaning => exact (hregs 0xF).symm ▸ (flagByte_eq_one_iff _).trans (collision_drwDrawing x y n s)
  case outOfRange => exact exec_drw_outOfRange x y (by omega)

end Sys2Proof.Proofs
end

section
/-! SUPPORT and PROOFS for the statements on the keyboard and random instructions (43_keyboard_random.md R130 to R135): the
decoded words, when a key counts as held, one equation per instruction and outcome for `exec`, and the obligations
assembled from these. -/

namespace Sys2Proof.Machine

open Sys2Proof.Claims

/-! ## The words decode (R66, R69, R70) -/

section DecodedWords
variable (x : Nibble) (kk : Byte)

theorem decodeWord_rnd : decodeWord (encodeRegImm 0xC x kk) = some (.rnd x kk) := by simp [decodeWord]

theorem decodeWord_skp : decodeWord (encodeRegImm 0xE x 0x9E) = some (.skp x) := by simp [decodeWord, decodeCatE]

theorem decodeWord_sknp : decodeWord (encodeRegImm 0xE x 0xA1) = some (.sknp x) := by simp [decodeWord, decodeCatE]

theorem decodeWord_ldVxK : decodeWord (encodeRegImm 0xF x 0x0A) = some (.ldVxK x) := by simp [decodeWord, decodeCatF]

end DecodedWords

/-! ## Held keys (R134, R135) -/

theorem keyHeld_iff (keys : Word) (b : Byte) :
    keyHeld keys b = true ↔ b.toNat ≤ 0x0F ∧ keys.getLsbD b.toNat = true := by
  rw [keyHeld, Bool.and_eq_true, decide_eq_true_eq]

/-- R134: a key is not held when its identifier names none, or its bit is clear. -/
theorem not_keyHeld_iff (keys : Word) (b : Byte) :
    (!keyHeld keys b) = true ↔ b.toNat ≥ 0x10 ∨ keys.getLsbD b.toNat = false := by
  rw [Bool.not_eq_true', ← Bool.not_eq_true, keyHeld_iff, not_and_or, Nat.not_le, Bool.not_eq_true]
  exact Iff.rfl

/-- R135: while any key is held, one is picked. -/
theorem exists_keyPick {keys : Word} (h : keys ≠ 0) : ∃ b, keyPick keys = some b :=
  Option.ne_none_iff_exists'.1 (mt keyPick_none.1 h)

/-! ## What each instruction answers (R130 to R133) -/

section Equations
variable (x : Nibble) (kk : Byte) (s : State)

theorem exec_rnd : exec (.rnd x kk) s = complete (s.setReg x (s.rnd &&& kk)) := rfl

theorem exec_skp : exec (.skp x) s = complete (s.skipIf (keyHeld s.keys (s.reg x))) := rfl

theorem exec_sknp : exec (.sknp x) s = complete (s.skipIf (!keyHeld s.keys (s.reg x))) := rfl

variable {s}

theorem exec_ldVxK_picked {b : Byte} (h : keyPick s.keys = some b) : exec (.ldVxK x) s = complete (s.setReg x b) := by
  simp only [exec, execLdVxK, waitForKey, h]

theorem exec_ldVxK_noKey (h : s.keys = 0) : exec (.ldVxK x) s = .next { s with pc := s.pc - 2, result := .ok } := by
  simp only [exec, execLdVxK, waitForKey, keyPick_none.2 h, complete_eq, State.rewind]

end Equations

/-! ## The obligations -/

/-- Settles O36: the random byte is a field of the state, so the masked byte is the one written. -/
theorem randomByteMasked : Obligations.RandomByteMasked := by
  intro x kk
  refine ⟨decodeWord_rnd x kk, fun s => ?_⟩
  rw [exec_rnd]
  exact complete_setReg_setsReg s x _

/-- Settles O37: the two tests decide that the key is held and that it is not. -/
theorem keySkips : Obligations.KeySkips := by
  intro x
  refine ⟨decodeWord_skp x, decodeWord_sknp x, fun s => ?_⟩
  rw [exec_skp, exec_sknp]
  exact ⟨complete_skipIf_skips s (keyHeld_iff _ _), complete_skipIf_skips s (not_keyHeld_iff _ _)⟩

/-- Settles O38, by whether a key is held; if one is, the key picked is the lowest held (`keyPick_some`). -/
theorem keyWait : Obligations.KeyWait := by
  intro x
  refine ⟨decodeWord_ldVxK x, fun s hnone => exec_ldVxK_noKey x hnone, fun s hheld => ?_⟩
  obtain ⟨b, hpick⟩ := exists_keyPick hheld
  obtain ⟨k, hk, rfl, hset, hlowest⟩ := keyPick_some hpick
  refine ⟨k, hk, hset, hlowest, ?_⟩
  rw [exec_ldVxK_picked x hpick]
  exact complete_setReg_setsReg s x _

end Sys2Proof.Machine
end

section
/-! SUPPORT and PROOFS for the statements on the memory instructions (44_memory_ops.md R140 to R142): the decoded words, what
memory and registers hold after a block is stored or loaded, one equation per instruction and outcome for `exec`, and the
obligations assembled from these. -/

namespace Sys2Proof.Machine

/-! ## The words decode (R66, R70) -/

section DecodedWords
variable (x : Nibble)

theorem decodeWord_ldB : decodeWord (encodeRegImm 0xF x 0x33) = some (.ldB x) := by simp [decodeWord, decodeCatF]

theorem decodeWord_storeRegs : decodeWord (encodeRegImm 0xF x 0x55) = some (.storeRegs x) := by
  simp [decodeWord, decodeCatF]

theorem decodeWord_loadRegs : decodeWord (encodeRegImm 0xF x 0x65) = some (.loadRegs x) := by
  simp [decodeWord, decodeCatF]

end DecodedWords

/-! ## Bytes written to memory (R45) -/

theorem memWrite_inRange (m : List Host.Cell) {a : Nat} {bs : List Byte} (h : a + bs.length ≤ 0x1000) :
    memWrite m a bs = some (writeBytes m a bs) := by
  rw [memWrite_eq, if_pos (.inr h)]

theorem memWrite_outOfRange (m : List Host.Cell) {a : Nat} {bs : List Byte} (hne : bs.length ≠ 0)
    (h : 0x1000 < a + bs.length) : memWrite m a bs = none := by
  rw [memWrite_eq, if_neg (not_or_intro hne (Nat.not_le.2 h))]

theorem readByte_writeBytes_at (m : List Host.Cell) (a : Nat) (bs : List Byte) {k : Nat} (h : k < bs.length) :
    readByte (writeBytes m a bs) (a + k) = bs[k] := by
  rw [readByte_writeBytes, dif_pos (by omega)]
  simp

theorem readByte_writeBytes_outside (m : List Host.Cell) {a b : Nat} {bs : List Byte} (h : b < a ∨ a + bs.length ≤ b) :
    readByte (writeBytes m a bs) b = readByte m b := by
  rw [readByte_writeBytes, dif_neg (by omega)]

/-! ## Decimal digits (R140) -/

@[simp] theorem decimalDigits_length (b : Byte) : (decimalDigits b).length = 3 := rfl

/-- R140: each digit is below 10, so it is never cut to 8 bits. -/
theorem decimalDigits_toNat (b : Byte) : (decimalDigits b)[0].toNat = b.toNat / 100 ∧
    (decimalDigits b)[1].toNat = b.toNat / 10 % 10 ∧ (decimalDigits b)[2].toNat = b.toNat % 10 := by
  have hb : b.toNat < 256 := b.isLt
  have hexact {d : Nat} (hd : d < 10) : (BitVec.ofNat 8 d).toNat = d := Nat.mod_eq_of_lt (by omega)
  exact ⟨hexact (by omega), hexact (by omega), hexact (by omega)⟩

/-! ## Blocks of registers (R141, R142) -/

section Blocks
variable (m : List Host.Cell) (a : Nat) {x : Nibble} {s : State}

theorem indexAfterBlock_A (h : s.variant = .A) :
    (indexAfterBlock s x).toNat = (s.index.toNat + x.toNat + 1) % 65536 := by
  have hx : x.toNat < 16 := x.isLt
  simp only [indexAfterBlock, h, BitVec.toNat_add, BitVec.toNat_ofNat]
  omega

theorem indexAfterBlock_B (h : s.variant = .B) : indexAfterBlock s x = s.index := by
  simp only [indexAfterBlock, h]

/-- R141: the byte `r` places above the block's start is `V[r]`. -/
theorem readByte_writeBytes_regsUpTo {r : Nibble} (h : r.toNat ≤ x.toNat) :
    readByte (writeBytes m a (regsUpTo s x)) (a + r.toNat) = s.reg r := by
  have hr : r.toNat < (regsUpTo s x).length := by rw [regsUpTo_length]; omega
  rw [readByte_writeBytes_at m a _ hr, regsUpTo_getElem, State.reg_eq]

theorem readByte_writeBytes_regsUpTo_outside {a b : Nat} (h : b < a ∨ a + x.toNat < b) :
    readByte (writeBytes m a (regsUpTo s x)) b = readByte m b :=
  readByte_writeBytes_outside m (by rw [regsUpTo_length]; omega)

/-- R142: registers loaded from the bytes at `a` upward; those above `x` keep their value. -/
theorem setRegsFrom_readBytes_getElem (v : Vector Byte 16) (r : Nibble) :
    (setRegsFrom v 0 (readBytes m a (x.toNat + 1)))[r.toNat]'r.isLt =
      if r.toNat ≤ x.toNat then readByte m (a + r.toNat) else v[r.toNat]'r.isLt := by
  rw [setRegsFrom_getElem]
  by_cases h : r.toNat ≤ x.toNat
  · rw [if_pos h, dif_pos (by rw [readBytes_length]; omega), readBytes_getElem, Nat.sub_zero]
  · rw [if_neg h, dif_neg (by rw [readBytes_length]; omega)]

end Blocks

/-! ## What each instruction answers (R140 to R142) -/

section Equations
variable {x : Nibble} {s : State}

theorem exec_ldB_inRange (h : s.index.toNat + 2 ≤ 0xFFF) : exec (.ldB x) s = .next { s with
    mem := writeBytes s.mem s.index.toNat (decimalDigits (s.reg x))
    result := .ok } := by
  have hwrite : s.index.toNat + (decimalDigits (s.reg x)).length ≤ 0x1000 := by rw [decimalDigits_length]; omega
  simp only [exec, execLdB, memWrite_inRange s.mem hwrite, complete_eq]

theorem exec_ldB_outOfRange (h : 0xFFF < s.index.toNat + 2) :
    exec (.ldB x) s = .next { s with result := .addressOutOfRange (encode (.ldB x)) } := by
  have hwrite : 0x1000 < s.index.toNat + (decimalDigits (s.reg x)).length := by rw [decimalDigits_length]; omega
  simp only [exec, execLdB, memWrite_outOfRange s.mem (by simp) hwrite, raise_eq]

theorem exec_storeRegs_inRange (h : s.index.toNat + x.toNat ≤ 0xFFF) : exec (.storeRegs x) s = .next { s with
    mem := writeBytes s.mem s.index.toNat (regsUpTo s x)
    index := indexAfterBlock s x
    result := .ok } := by
  have hwrite : s.index.toNat + (regsUpTo s x).length ≤ 0x1000 := by rw [regsUpTo_length]; omega
  simp only [exec, execStoreRegs, memWrite_inRange s.mem hwrite, complete_eq]

theorem exec_storeRegs_outOfRange (h : 0xFFF < s.index.toNat + x.toNat) :
    exec (.storeRegs x) s = .next { s with result := .addressOutOfRange (encode (.storeRegs x)) } := by
  have hwrite : 0x1000 < s.index.toNat + (regsUpTo s x).length := by rw [regsUpTo_length]; omega
  simp only [exec, execStoreRegs, memWrite_outOfRange s.mem (by simp [regsUpTo_length]) hwrite, raise_eq]

theorem exec_loadRegs_inRange (h : s.index.toNat + x.toNat ≤ 0xFFF) : exec (.loadRegs x) s = .next { s with
    v := setRegsFrom s.v 0 (readBytes s.mem s.index.toNat (x.toNat + 1))
    index := indexAfterBlock s x
    result := .ok } := by
  have hrange : x.toNat + 1 = 0 ∨ s.index.toNat + (x.toNat + 1) ≤ 0x1000 := by omega
  simp only [exec, execLoadRegs, memRead_eq, if_pos hrange, complete_eq]

theorem exec_loadRegs_outOfRange (h : 0xFFF < s.index.toNat + x.toNat) :
    exec (.loadRegs x) s = .next { s with result := .addressOutOfRange (encode (.loadRegs x)) } := by
  have hrange : ¬ (x.toNat + 1 = 0 ∨ s.index.toNat + (x.toNat + 1) ≤ 0x1000) := by omega
  simp only [exec, execLoadRegs, memRead_eq, if_neg hrange, raise_eq]

end Equations

/-! ## The obligations -/

/-- Settles O44, by the range check; in range, the bytes are those of `regsUpTo` and the variant decides the index. -/
theorem blockStore : Obligations.BlockStore := by
  intro x
  refine ⟨decodeWord_storeRegs x, fun s hrange => ?inRange, fun s hbeyond => exec_storeRegs_outOfRange hbeyond⟩
  case inRange =>
    exact ⟨_, exec_storeRegs_inRange hrange, rfl,
      fun r hr => readByte_writeBytes_regsUpTo s.mem _ hr,
      fun a ha => readByte_writeBytes_regsUpTo_outside s.mem ha,
      indexAfterBlock_A, indexAfterBlock_B⟩

/-- Settles O45, by the range check; in range, only the registers up to `x` take a byte. -/
theorem blockLoad : Obligations.BlockLoad := by
  intro x
  refine ⟨decodeWord_loadRegs x, fun s hrange => ?inRange, fun s hbeyond => exec_loadRegs_outOfRange hbeyond⟩
  case inRange =>
    exact ⟨_, exec_loadRegs_inRange hrange, rfl,
      fun r => setRegsFrom_readBytes_getElem s.mem _ s.v r,
      indexAfterBlock_A, indexAfterBlock_B⟩

/-- Settles O46, from the two statements before it: the load reads at `I + r` the byte that the store put there. -/
theorem blockLoadUndoesBlockStore : Obligations.BlockLoadUndoesBlockStore := by
  intro x s w hrange
  obtain ⟨-, hstores, -⟩ := blockStore x
  obtain ⟨-, hloads, -⟩ := blockLoad x
  obtain ⟨t, hstore, -, hbytes, -⟩ := hstores s hrange
  obtain ⟨u, hload, hframe, hregs, -⟩ := hloads { t with index := s.index, v := w } hrange
  refine ⟨t, u, hstore, hload, by rw [hframe], fun r hr => ?_⟩
  calc u.reg r = readByte t.mem (s.index.toNat + r.toNat) := (hregs r).trans (if_pos hr)
    _ = s.reg r := hbytes r hr

/-- Settles O43, by the range check; in range, the three bytes are those of `decimalDigits`. -/
theorem storeDecimalDigits : Obligations.StoreDecimalDigits := by
  intro x
  refine ⟨decodeWord_ldB x, fun s hrange => ?inRange, fun s hbeyond => exec_ldB_outOfRange hbeyond⟩
  case inRange =>
    have hbyte (k : Nat) (hk : k < (decimalDigits (s.reg x)).length) :=
      congrArg BitVec.toNat (readByte_writeBytes_at s.mem s.index.toNat _ hk)
    obtain ⟨hhundreds, htens, hones⟩ := decimalDigits_toNat (s.reg x)
    refine ⟨_, exec_ldB_inRange hrange, rfl, (hbyte 0 _).trans hhundreds, (hbyte 1 _).trans htens,
      (hbyte 2 _).trans hones, fun a ha => ?_⟩
    exact readByte_writeBytes_outside s.mem (by rw [decimalDigits_length]; omega)

end Sys2Proof.Machine
end

section
/-! SUPPORT and PROOFS for the statements on the timer instructions (45_timers.md R154 to R156): the decoded words, the unit
count of a well-formed timer, one equation per instruction for `exec`, and the obligations assembled from these. -/

namespace Sys2Proof.Machine

/-! ## The words decode (R66, R70) -/

section DecodedWords
variable (x : Nibble)

theorem decodeWord_ldVxDt : decodeWord (encodeRegImm 0xF x 0x07) = some (.ldVxDt x) := by simp [decodeWord, decodeCatF]

theorem decodeWord_ldDtVx : decodeWord (encodeRegImm 0xF x 0x15) = some (.ldDtVx x) := by simp [decodeWord, decodeCatF]

theorem decodeWord_ldStVx : decodeWord (encodeRegImm 0xF x 0x18) = some (.ldStVx x) := by simp [decodeWord, decodeCatF]

end DecodedWords

/-! ## The unit count (R151, R153) -/

/-- R151: once armed, a timer's remaining time is what lies between `now` and its expiry. -/
theorem Timer.remaining_eq_expiry_sub {t : Timer} {now : Nat} (h : t.armedAt ≤ now) :
    t.remaining now = t.armedAt + t.duration - now := by
  rw [Timer.remaining]
  omega

theorem Timer.remaining_le_duration (t : Timer) (now : Nat) : t.remaining now ≤ t.duration := Nat.sub_le _ _

/-- R153: a duration of at most 255 units never counts more than 255, whatever the quanta per unit. -/
theorem Timer.units_le_255 {t : Timer} {q : Nat} (h : t.duration ≤ 255 * q) (now : Nat) : t.units q now ≤ 255 :=
  Nat.div_le_of_le_mul ((t.remaining_le_duration now).trans (Nat.mul_comm 255 q ▸ h))

/-- R154: the unit count of a well-formed timer fits a byte, so the byte is the rounded-down count itself. -/
theorem Timer.unitsByte_toNat {t : Timer} {q now : Nat} (h : t.wf q now) :
    (BitVec.ofNat 8 (t.units q now)).toNat = (t.armedAt + t.duration - now) / q := by
  obtain ⟨harmed, hduration⟩ := h
  calc (BitVec.ofNat 8 (t.units q now)).toNat
    _ = t.units q now := Nat.mod_eq_of_lt (Nat.lt_succ_of_le (Timer.units_le_255 hduration now))
    _ = (t.armedAt + t.duration - now) / q := by rw [Timer.units, Timer.remaining_eq_expiry_sub harmed]

/-! ## What each instruction answers (R154 to R156) -/

section Equations
variable (x : Nibble) (s : State)

theorem exec_ldVxDt : exec (.ldVxDt x) s = complete (s.setReg x (BitVec.ofNat 8 (s.dt.units s.quanta s.now))) := rfl

theorem exec_ldDtVx :
    exec (.ldDtVx x) s = .next { s with dt := ⟨s.now, (s.reg x).toNat * s.quanta⟩, result := .ok } := rfl

theorem exec_ldStVx :
    exec (.ldStVx x) s = .next { s with st := ⟨s.now, (s.reg x).toNat * s.quanta⟩, result := .ok } := rfl

end Equations

/-! ## The obligations -/

/-- Settles O39: one register write, of a count that the timer's invariant keeps within a byte. -/
theorem readDelayTimer : Obligations.ReadDelayTimer := by
  intro x
  refine ⟨decodeWord_ldVxDt x, fun s _ hwf => ?_⟩
  obtain ⟨t, hnext, hset⟩ := complete_setReg_setsReg s x (BitVec.ofNat 8 (s.dt.units s.quanta s.now))
  exact ⟨t, _, (exec_ldVxDt x s).trans hnext, hset, Timer.unitsByte_toNat hwf⟩

/-- Settles O40: each instruction arms its own timer with the register's units at the sampled time. -/
theorem armTimers : Obligations.ArmTimers :=
  fun x => ⟨decodeWord_ldDtVx x, decodeWord_ldStVx x, fun s => ⟨exec_ldDtVx x s, exec_ldStVx x s⟩⟩

end Sys2Proof.Machine
end

section
/-! SUPPORT and PROOFS for the statements on the arithmetic and logic instructions (46_alu.md R160 to R168): the decoded
words, the results and flags as naturals, what a completed write of each kind answers, one equation per instruction for
`exec`, and the obligations assembled from these. -/

namespace Sys2Proof.Machine

open Sys2Proof.Claims

/-! ## The words decode (R66, R68) -/

section DecodedWords
variable (x y : Nibble)

theorem decodeWord_ldReg : decodeWord (encodeRegReg 0x8 x y 0x0) = some (.ldReg x y) := by simp [decodeWord, decodeCat8]

theorem decodeWord_orReg : decodeWord (encodeRegReg 0x8 x y 0x1) = some (.orReg x y) := by simp [decodeWord, decodeCat8]

theorem decodeWord_andReg : decodeWord (encodeRegReg 0x8 x y 0x2) = some (.andReg x y) := by simp [decodeWord, decodeCat8]

theorem decodeWord_xorReg : decodeWord (encodeRegReg 0x8 x y 0x3) = some (.xorReg x y) := by simp [decodeWord, decodeCat8]

theorem decodeWord_addReg : decodeWord (encodeRegReg 0x8 x y 0x4) = some (.addReg x y) := by simp [decodeWord, decodeCat8]

theorem decodeWord_sub : decodeWord (encodeRegReg 0x8 x y 0x5) = some (.sub x y) := by simp [decodeWord, decodeCat8]

theorem decodeWord_shr : decodeWord (encodeRegReg 0x8 x y 0x6) = some (.shr x y) := by simp [decodeWord, decodeCat8]

theorem decodeWord_subn : decodeWord (encodeRegReg 0x8 x y 0x7) = some (.subn x y) := by simp [decodeWord, decodeCat8]

theorem decodeWord_shl : decodeWord (encodeRegReg 0x8 x y 0xE) = some (.shl x y) := by simp [decodeWord, decodeCat8]

end DecodedWords

/-! ## The values computed (R165 to R168) -/

/-- R165, R167: 256 is added first, so that the difference of naturals never goes below 0. -/
theorem byte_sub_toNat (a b : Byte) : (a - b).toNat = (256 + a.toNat - b.toNat) % 256 := by
  rw [BitVec.toNat_sub, Nat.sub_add_comm b.isLt.le]

theorem byte_shiftRight_one_toNat (b : Byte) : (b >>> 1).toNat = b.toNat / 2 := by
  rw [BitVec.toNat_ushiftRight, Nat.shiftRight_one]

theorem byte_shiftLeft_one_toNat (b : Byte) : (b <<< 1).toNat = b.toNat * 2 % 256 := by
  rw [BitVec.toNat_shiftLeft, Nat.shiftLeft_eq]

theorem shiftSource_A {s : State} (h : s.variant = .A) (x y : Nibble) : shiftSource s x y = s.reg y := by
  simp only [shiftSource, h]

theorem shiftSource_B {s : State} (h : s.variant = .B) (x y : Nibble) : shiftSource s x y = s.reg x := by
  simp only [shiftSource, h]

/-- R166, R168: a value that agrees with the source under each variant is the source's, there being no third variant. -/
theorem shiftSource_toNat_eq {s : State} {x y : Nibble} {src : Nat} (hA : s.variant = .A → src = (s.reg y).toNat)
    (hB : s.variant = .B → src = (s.reg x).toNat) : (shiftSource s x y).toNat = src := by
  cases hv : s.variant with
  | A => rw [shiftSource_A hv, hA hv]
  | B => rw [shiftSource_B hv, hB hv]

/-! ## The flags computed (R164 to R168) -/

theorem carryFlag_toNat (a b : Byte) : (carryFlag a b).toNat = if a.toNat + b.toNat > 255 then 1 else 0 := by
  simp only [carryFlag, flagByte_toNat, decide_eq_true_eq]

theorem noBorrowFlag_toNat (a b : Byte) : (noBorrowFlag a b).toNat = if a.toNat ≥ b.toNat then 1 else 0 := by
  simp only [noBorrowFlag, flagByte_toNat, decide_eq_true_eq]

/-- R166: the bit shifted out to the right is the remainder of halving. -/
theorem shiftedOutRight_toNat (b : Byte) : (shiftedOutRight b).toNat = if b.toNat % 2 = 1 then 1 else 0 := by
  simp only [shiftedOutRight, flagByte_toNat, BitVec.getLsbD, Nat.testBit_zero, decide_eq_true_eq]

/-- R168: the bit shifted out to the left is set exactly in the upper half of the bytes. -/
theorem shiftedOutLeft_toNat (b : Byte) : (shiftedOutLeft b).toNat = if 128 ≤ b.toNat then 1 else 0 := by
  have hmsb : b.getLsbD 7 = decide (128 ≤ b.toNat) := BitVec.msb_eq_decide b
  simp only [shiftedOutLeft, flagByte_toNat, hmsb, decide_eq_true_eq]

/-! ## What a completed write answers (R161 to R163, R169) -/

/-- A completed write of a result and then a flag answers the state the statements describe. -/
theorem complete_writeResultThenFlag (s : State) (x : Nibble) {b flag : Byte} {res : Nat} {c : Prop} [Decidable c]
    (hres : b.toNat = res) (hflag : flag.toNat = if c then 1 else 0) :
    ∃ t, complete (writeResultThenFlag s x b flag) = .next t ∧ setsRegThenFlag s t x res c := by
  refine ⟨_, complete_eq _, rfl, fun r => ?_⟩
  rw [← hflag, ← hres, ← apply_ite BitVec.toNat, ← apply_ite BitVec.toNat]
  exact congrArg BitVec.toNat (s.reg_writeResultThenFlag x r b flag)

/-- A completed logic operation: one register write under Variant A, a result and then the flag 0 under Variant B. -/
theorem complete_writeLogicResult (s : State) (x : Nibble) (b : Byte) :
    ∃ t, complete (writeLogicResult s x b) = .next t ∧ logicEffect s t x b := by
  cases hv : s.variant with
  | A =>
    rw [s.writeLogicResult_A x b hv]
    obtain ⟨t, hnext, hset⟩ := complete_setReg_setsReg s x b
    exact ⟨t, hnext, fun _ => hset, fun hB => by simp [hv] at hB⟩
  | B =>
    rw [s.writeLogicResult_B x b hv]
    obtain ⟨t, hnext, hset⟩ := complete_writeResultThenFlag s x (b := b) (flag := 0x00) (c := False) rfl rfl
    exact ⟨t, hnext, fun hA => by simp [hv] at hA, fun _ => hset⟩

/-! ## What each instruction answers (R160 to R168) -/

section Equations
variable (x y : Nibble) (s : State)

theorem exec_ldReg : exec (.ldReg x y) s = complete (s.setReg x (s.reg y)) := rfl

theorem exec_orReg : exec (.orReg x y) s = complete (writeLogicResult s x (s.reg x ||| s.reg y)) := rfl

theorem exec_andReg : exec (.andReg x y) s = complete (writeLogicResult s x (s.reg x &&& s.reg y)) := rfl

theorem exec_xorReg : exec (.xorReg x y) s = complete (writeLogicResult s x (s.reg x ^^^ s.reg y)) := rfl

theorem exec_addReg : exec (.addReg x y) s =
    complete (writeResultThenFlag s x (s.reg x + s.reg y) (carryFlag (s.reg x) (s.reg y))) := rfl

theorem exec_sub : exec (.sub x y) s =
    complete (writeResultThenFlag s x (s.reg x - s.reg y) (noBorrowFlag (s.reg x) (s.reg y))) := rfl

theorem exec_subn : exec (.subn x y) s =
    complete (writeResultThenFlag s x (s.reg y - s.reg x) (noBorrowFlag (s.reg y) (s.reg x))) := rfl

theorem exec_shr : exec (.shr x y) s =
    complete (writeResultThenFlag s x (shiftSource s x y >>> 1) (shiftedOutRight (shiftSource s x y))) := rfl

theorem exec_shl : exec (.shl x y) s =
    complete (writeResultThenFlag s x (shiftSource s x y <<< 1) (shiftedOutLeft (shiftSource s x y))) := rfl

end Equations

/-! ## The obligations -/

/-- Settles O30: one register write, of the source read before it, so `x = y` and `x = F` need no case. -/
theorem copyRegister : Obligations.CopyRegister := by
  intro x y
  refine ⟨decodeWord_ldReg x y, fun s => ?_⟩
  rw [exec_ldReg]
  exact complete_setReg_setsReg s x _

/-- Settles O31: the three operations differ in the byte they write; the variant is split once, in
`complete_writeLogicResult`. -/
theorem logicOperations : Obligations.LogicOperations := by
  intro x y
  refine ⟨decodeWord_orReg x y, decodeWord_andReg x y, decodeWord_xorReg x y, fun s => ?_⟩
  rw [exec_orReg, exec_andReg, exec_xorReg]
  exact ⟨complete_writeLogicResult s x _, complete_writeLogicResult s x _, complete_writeLogicResult s x _⟩

/-- Settles O32: sum and carry are computed from the old registers. -/
theorem addRegisters : Obligations.AddRegisters := by
  intro x y
  refine ⟨decodeWord_addReg x y, fun s => ?_⟩
  rw [exec_addReg]
  exact complete_writeResultThenFlag s x (BitVec.toNat_add _ _) (carryFlag_toNat _ _)

/-- Settles O33: the two directions are one subtraction with minuend and subtrahend exchanged. -/
theorem subtractBothWays : Obligations.SubtractBothWays := by
  intro x y
  refine ⟨decodeWord_sub x y, decodeWord_subn x y, ?_⟩
  rintro s _ _ rfl rfl
  rw [exec_sub, exec_subn]
  exact ⟨complete_writeResultThenFlag s x (byte_sub_toNat _ _) (noBorrowFlag_toNat _ _),
    complete_writeResultThenFlag s x (byte_sub_toNat _ _) (noBorrowFlag_toNat _ _)⟩

/-- Settles O34: the variant decides the source only; result and flag are then those of the source. -/
theorem shiftBothWays : Obligations.ShiftBothWays := by
  intro x y
  refine ⟨decodeWord_shr x y, decodeWord_shl x y, fun s src hA hB => ?_⟩
  obtain rfl := shiftSource_toNat_eq hA hB
  rw [exec_shr, exec_shl]
  exact ⟨complete_writeResultThenFlag s x (byte_shiftRight_one_toNat _) (shiftedOutRight_toNat _),
    complete_writeResultThenFlag s x (byte_shiftLeft_one_toNat _) (shiftedOutLeft_toNat _)⟩

end Sys2Proof.Machine
end

section
/-! PROOFS for the statement on the variant and the inputs (47_variants.md R181; 10_state.md R20, R22 to R24): the part of
the state that no instruction writes, kept by every instruction, changed in a step by the sampling alone, and the obligation
assembled from these. -/

namespace Sys2Proof.Machine

/-! ## The environment of an instruction -/

/-- What an instruction may read but never writes: the variant, `Q`, the three sampled inputs, and the host's schedule with
its counter (assumption logs 2, 3, 4). -/
def State.environment (s : State) : Variant × Nat × Nat × Word × Byte × List HostInput × Nat :=
  (s.variant, s.quanta, s.now, s.keys, s.rnd, s.script, s.draws)

theorem State.environment_eq_iff {s t : State} : t.environment = s.environment ↔
    t.variant = s.variant ∧ t.quanta = s.quanta ∧ t.now = s.now ∧ t.keys = s.keys ∧ t.rnd = s.rnd ∧
      t.script = s.script ∧ t.draws = s.draws := by
  simp only [State.environment, Prod.mk.injEq]

/-- Completing from a state with the environment of `s` answers a state with it: only `result` is latched. -/
theorem complete_environment {s u : State} (h : u.environment = s.environment) :
    ∃ t, complete u = .next t ∧ t.environment = s.environment :=
  ⟨_, complete_eq u, h⟩

/-- R161 to R163: both variants write registers only. -/
theorem writeLogicResult_environment (s : State) (x : Nibble) (b : Byte) :
    (writeLogicResult s x b).environment = s.environment := by
  cases hv : s.variant with
  | A => rw [s.writeLogicResult_A x b hv]; rfl
  | B => rw [s.writeLogicResult_B x b hv]; rfl

/-- R132: the key wait reads `keys`, and writes a register or `PC`. -/
theorem waitForKey_environment (s : State) (x : Nibble) : (waitForKey s x).environment = s.environment := by
  rw [waitForKey]
  cases keyPick s.keys <;> rfl

/-! ## What an instruction and a step keep (R181) -/

/-- Every instruction answers a state, and keeps the environment in it. -/
theorem exec_environment (i : Instr) (s : State) : ∃ t, exec i s = .next t ∧ t.environment = s.environment := by
  cases i with
  | ret =>
    cases hstack : s.stack with
    | nil => exact ⟨_, exec_ret_empty hstack, rfl⟩
    | cons target rest => exact ⟨_, exec_ret_cons hstack, rfl⟩
  | call nnn =>
    rcases Nat.lt_or_ge s.stack.length 16 with hroom | hfull
    · exact ⟨_, exec_call_room nnn hroom, rfl⟩
    · exact ⟨_, exec_call_full nnn hfull, rfl⟩
  | drw x y n =>
    by_cases hrange : n.toNat = 0 ∨ s.index.toNat + n.toNat ≤ 0x1000
    · exact ⟨_, exec_drw_inRange x y hrange, rfl⟩
    · exact ⟨_, exec_drw_outOfRange x y hrange, rfl⟩
  | ldB x =>
    rcases le_or_gt (s.index.toNat + 2) 0xFFF with hrange | hbeyond
    · exact ⟨_, exec_ldB_inRange hrange, rfl⟩
    · exact ⟨_, exec_ldB_outOfRange hbeyond, rfl⟩
  | storeRegs x =>
    rcases le_or_gt (s.index.toNat + x.toNat) 0xFFF with hrange | hbeyond
    · exact ⟨_, exec_storeRegs_inRange hrange, rfl⟩
    · exact ⟨_, exec_storeRegs_outOfRange hbeyond, rfl⟩
  | loadRegs x =>
    rcases le_or_gt (s.index.toNat + x.toNat) 0xFFF with hrange | hbeyond
    · exact ⟨_, exec_loadRegs_inRange hrange, rfl⟩
    · exact ⟨_, exec_loadRegs_outOfRange hbeyond, rfl⟩
  | orReg x y | andReg x y | xorReg x y => exact complete_environment (writeLogicResult_environment s x _)
  | ldVxK x => exact complete_environment (waitForKey_environment s x)
  | cls | jp | seImm | sneImm | seReg | sneReg | jpV0 | skp | sknp | ldI | addI | ldF | ldDtVx | ldStVx | ldImm | addImm
  | ldReg | addReg | sub | subn | shr | shl | rnd | ldVxDt => exact complete_environment rfl

theorem environment_of_exec {i : Instr} {s t : State} (h : exec i s = .next t) : t.environment = s.environment := by
  obtain ⟨u, hu, henv⟩ := exec_environment i s
  obtain rfl : u = t := Host.Outcome.next.inj (hu.symm.trans h)
  exact henv

/-- R64: in a step only the sampling changes the environment; advance, dispatch and signals leave it alone. -/
theorem environment_of_step {s t : State} (h : step s = .next t) : t.environment = s.sample.environment := by
  rcases step_cases s with ⟨-, hfetch⟩ | ⟨-, op, -, -, hdispatch⟩ | ⟨-, op, i, -, -, hexec⟩
  · cases hfetch.symm.trans h; rfl
  · cases hdispatch.symm.trans h; rfl
  · exact environment_of_exec (s := s.sample.advance) (hexec.symm.trans h)

/-! ## The obligation -/

/-- Settles O56: an instruction keeps the environment, and a step gives it the values of the sampling, whose `now` is the
old one plus the time elapsed. -/
theorem variantAndInputsAreNeverWritten : Obligations.VariantAndInputsAreNeverWritten := by
  refine ⟨fun s t hstep => ?step, fun i s t hexec => State.environment_eq_iff.1 (environment_of_exec hexec)⟩
  case step =>
    obtain ⟨hvariant, hquanta, hnow, hkeys, hrnd, -, -⟩ := State.environment_eq_iff.1 (environment_of_step hstep)
    exact ⟨hvariant, hquanta, hnow ▸ Nat.le_add_right _ _, hnow, hkeys, hrnd⟩

end Sys2Proof.Machine
end

section
/-! SUPPORT and PROOFS for the statements on the five signals (60_exceptions.md R200 to R206): the words some row of the
opcode map selects are those the decoder accepts, how a step ends in each of its three stages, and the obligations
assembled from these. -/

namespace Sys2Proof

/-! ## The rows of the opcode map, by the fields they key on (R74, R78) -/

/-- A word is its top nibble and the twelve bits below it (R61, R62). -/
theorem encodeAddr_fields (op : Word) : encodeAddr (fieldCat op) (fieldNNN op) = op :=
  (BitVec.extractLsb'_append_extractLsb'_eq_extractLsb' (by decide)).trans BitVec.extractLsb'_eq_self

/-- A word is its top two nibbles and its low byte (R61, R62). -/
theorem encodeRegImm_fields (op : Word) : encodeRegImm (fieldCat op) (fieldX op) (fieldKK op) = op := by
  have htop : (op.extractLsb' 12 4 ++ op.extractLsb' 8 4 : Byte) = highByte op :=
    BitVec.extractLsb'_append_extractLsb'_eq_extractLsb' (by decide)
  rw [encodeRegImm, fieldCat, fieldX, htop]
  exact wordOfBytes_bytes op

/-- The row of one word, of category `c`. -/
def OpcodeRow.byNNN (c : Nibble) (nnn : Addr12) : OpcodeRow := ⟨encodeAddr c nnn, 0xFFFF⟩

/-- The row of a whole category. -/
def OpcodeRow.byCat (c : Nibble) : OpcodeRow := ⟨encodeAddr c 0, 0xF000⟩

/-- The row of category `c` that the low nibble keys. -/
def OpcodeRow.byN (c n : Nibble) : OpcodeRow := ⟨encodeRegReg c 0 0 n, 0xF00F⟩

/-- The row of category `c` that the low byte keys. -/
def OpcodeRow.byKK (c : Nibble) (kk : Byte) : OpcodeRow := ⟨encodeRegImm c 0 kk, 0xF0FF⟩

/-- R67: the low twelve bits that category 0 has rows for. -/
def cat0Keys : List Addr12 := [0x0E0, 0x0EE]

/-- R68: the low nibbles that category 8 has rows for. -/
def cat8Keys : List Nibble := [0x0, 0x1, 0x2, 0x3, 0x4, 0x5, 0x6, 0x7, 0xE]

/-- R69: the low bytes that category 0xE has rows for. -/
def catEKeys : List Byte := [0x9E, 0xA1]

/-- R70: the low bytes that category 0xF has rows for. -/
def catFKeys : List Byte := [0x07, 0x0A, 0x15, 0x18, 0x1E, 0x29, 0x33, 0x55, 0x65]

/-- R78: the table, its rows grouped by format. -/
theorem opcodeRows_eq : opcodeRows =
    cat0Keys.map (.byNNN 0x0) ++ [0x1, 0x2, 0x3, 0x4, 0x5, 0x6, 0x7].map .byCat ++
    cat8Keys.map (.byN 0x8) ++ [0x9, 0xA, 0xB, 0xC, 0xD].map .byCat ++
    catEKeys.map (.byKK 0xE) ++ catFKeys.map (.byKK 0xF) := by decide

section Rows
variable (c n : Nibble) (kk : Byte) (nnn : Addr12) (op : Word)

@[simp] theorem selects_byNNN : (OpcodeRow.byNNN c nnn).selects op = true ↔ fieldCat op = c ∧ fieldNNN op = nnn := by
  have hmask : op &&& 0xFFFF = op := BitVec.and_allOnes
  rw [OpcodeRow.selects, OpcodeRow.byNNN, beq_iff_eq, hmask]
  constructor
  · rintro rfl; simp
  · rintro ⟨rfl, rfl⟩; exact (encodeAddr_fields op).symm

@[simp] theorem selects_byCat : (OpcodeRow.byCat c).selects op = true ↔ fieldCat op = c := by
  have hmask : op &&& 0xF000 = encodeAddr (fieldCat op) 0 := by
    rw [← encodeAddr_and_cat _ (fieldNNN op), encodeAddr_fields]
  rw [OpcodeRow.selects, OpcodeRow.byCat, beq_iff_eq, hmask]
  exact ⟨fun h => by simpa using congrArg fieldCat h, fun h => by rw [h]⟩

@[simp] theorem selects_byN : (OpcodeRow.byN c n).selects op = true ↔ fieldCat op = c ∧ fieldN op = n := by
  have hmask : op &&& 0xF00F = encodeRegReg (fieldCat op) 0 0 (fieldN op) := by
    rw [← encodeRegReg_and_sel _ (fieldX op) (fieldY op), encodeRegReg_fields]
  rw [OpcodeRow.selects, OpcodeRow.byN, beq_iff_eq, hmask]
  exact ⟨fun h => ⟨by simpa using congrArg fieldCat h, by simpa using congrArg fieldN h⟩, fun ⟨hc, hn⟩ => by rw [hc, hn]⟩

@[simp] theorem selects_byKK : (OpcodeRow.byKK c kk).selects op = true ↔ fieldCat op = c ∧ fieldKK op = kk := by
  have hmask : op &&& 0xF0FF = encodeRegImm (fieldCat op) 0 (fieldKK op) := by
    rw [← encodeRegImm_and_sel _ (fieldX op), encodeRegImm_fields]
  rw [OpcodeRow.selects, OpcodeRow.byKK, beq_iff_eq, hmask]
  exact ⟨fun h => ⟨by simpa using congrArg fieldCat h, by simpa using congrArg fieldKK h⟩, fun ⟨hc, hk⟩ => by rw [hc, hk]⟩

end Rows

/-! ## The decoder accepts exactly the words of the map (R72, R74) -/

/-- R66 to R70, R78: the fields that a row of the map selects. -/
theorem wellFormedWord_iff (op : Word) : wellFormedWord op = true ↔
    (fieldCat op = 0x0 ∧ fieldNNN op ∈ cat0Keys) ∨
    fieldCat op ∈ [0x1#4, 0x2#4, 0x3#4, 0x4#4, 0x5#4, 0x6#4, 0x7#4] ∨
    (fieldCat op = 0x8 ∧ fieldN op ∈ cat8Keys) ∨
    fieldCat op ∈ [0x9#4, 0xA#4, 0xB#4, 0xC#4, 0xD#4] ∨
    (fieldCat op = 0xE ∧ fieldKK op ∈ catEKeys) ∨
    (fieldCat op = 0xF ∧ fieldKK op ∈ catFKeys) := by
  simp only [wellFormedWord, opcodeRows_eq, List.any_append, List.any_map, Bool.or_eq_true, List.any_eq_true,
    Function.comp_apply, selects_byNNN, selects_byCat, selects_byN, selects_byKK, or_assoc]
  simp [and_comm]

theorem decodeCat0_isSome (op : Word) : (decodeCat0 op).isSome = true ↔ fieldNNN op ∈ cat0Keys := by
  unfold decodeCat0; split <;> simp_all [cat0Keys]

theorem decodeCat8_isSome (op : Word) : (decodeCat8 op).isSome = true ↔ fieldN op ∈ cat8Keys := by
  unfold decodeCat8; split <;> simp_all [cat8Keys]

theorem decodeCatE_isSome (op : Word) : (decodeCatE op).isSome = true ↔ fieldKK op ∈ catEKeys := by
  unfold decodeCatE; split <;> simp_all [catEKeys]

theorem decodeCatF_isSome (op : Word) : (decodeCatF op).isSome = true ↔ fieldKK op ∈ catFKeys := by
  unfold decodeCatF; split <;> simp_all [catFKeys]

/-- A category is one of those dispatched by itself, or one of the four with a second level. -/
theorem category_cases : ∀ c : Nibble, c = 0x0 ∨ c = 0x8 ∨ c = 0xE ∨ c = 0xF ∨
    c = 0x1 ∨ c = 0x2 ∨ c = 0x3 ∨ c = 0x4 ∨ c = 0x5 ∨ c = 0x6 ∨ c = 0x7 ∨ c = 0x9 ∨ c = 0xA ∨ c = 0xB ∨ c = 0xC ∨
    c = 0xD := by decide

/-- R72, R74: in each category, the decoder's second level accepts the keys of the map's rows. -/
theorem decodeWord_isSome (op : Word) : (decodeWord op).isSome = wellFormedWord op := by
  rw [Bool.eq_iff_iff, wellFormedWord_iff]
  rcases category_cases (fieldCat op) with h | h | h | h | h
  · simp [decodeWord, h, decodeCat0_isSome]
  · simp [decodeWord, h, decodeCat8_isSome]
  · simp [decodeWord, h, decodeCatE_isSome]
  · simp [decodeWord, h, decodeCatF_isSome]
  · rcases h with h | h | h | h | h | h | h | h | h | h | h | h <;> simp [decodeWord, h]

theorem decodeWord_none_of_not_wellFormed {op : Word} (h : wellFormedWord op = false) : decodeWord op = none := by
  rwa [← Option.not_isSome_iff_eq_none, decodeWord_isSome, Bool.not_eq_true]

theorem exists_decodeWord_of_wellFormed {op : Word} (h : wellFormedWord op = true) : ∃ i, decodeWord op = some i := by
  rwa [← Option.isSome_iff_exists, decodeWord_isSome]

end Sys2Proof

namespace Sys2Proof.Machine

open Sys2Proof.Claims

/-! ## The codes of the signals (R200) -/

@[simp] theorem code_unimplemented (op : Word) : (StepResult.unimplemented op).code = 1 := rfl

@[simp] theorem code_stackUnderflow (op : Word) : (StepResult.stackUnderflow op).code = 2 := rfl

@[simp] theorem code_stackOverflow (op : Word) : (StepResult.stackOverflow op).code = 3 := rfl

@[simp] theorem code_addressOutOfRange (op : Word) : (StepResult.addressOutOfRange op).code = 4 := rfl

@[simp] theorem code_fetchOutOfRange (pc : Word) : (StepResult.fetchOutOfRange pc).code = 5 := rfl

/-! ## How an instruction ends (R79, R206) -/

/-- Every instruction completes, or raises one of the signals of codes 2 to 4 from the state it was given. -/
theorem exec_ok_or_raises (i : Instr) (s : State) : (∃ t, exec i s = .next t ∧ t.result = .ok) ∨
    ∃ r : StepResult, exec i s = .next { s with result := r } ∧ 2 ≤ r.code ∧ r.code ≤ 4 := by
  cases i with
  | ret =>
    by_cases hempty : s.stack = []
    · exact .inr ⟨_, exec_ret_empty hempty, by simp⟩
    · obtain ⟨target, rest, hstack⟩ := List.exists_cons_of_ne_nil hempty
      exact .inl ⟨_, exec_ret_cons hstack, rfl⟩
  | call nnn =>
    rcases Nat.lt_or_ge s.stack.length 16 with hroom | hfull
    · exact .inl ⟨_, exec_call_room nnn hroom, rfl⟩
    · exact .inr ⟨_, exec_call_full nnn hfull, by simp⟩
  | drw x y n =>
    by_cases hrange : n.toNat = 0 ∨ s.index.toNat + n.toNat ≤ 0x1000
    · exact .inl ⟨_, exec_drw_inRange x y hrange, rfl⟩
    · exact .inr ⟨_, exec_drw_outOfRange x y hrange, by simp⟩
  | ldB x =>
    rcases le_or_gt (s.index.toNat + 2) 0xFFF with hrange | hbeyond
    · exact .inl ⟨_, exec_ldB_inRange hrange, rfl⟩
    · exact .inr ⟨_, exec_ldB_outOfRange hbeyond, by simp⟩
  | storeRegs x =>
    rcases le_or_gt (s.index.toNat + x.toNat) 0xFFF with hrange | hbeyond
    · exact .inl ⟨_, exec_storeRegs_inRange hrange, rfl⟩
    · exact .inr ⟨_, exec_storeRegs_outOfRange hbeyond, by simp⟩
  | loadRegs x =>
    rcases le_or_gt (s.index.toNat + x.toNat) 0xFFF with hrange | hbeyond
    · exact .inl ⟨_, exec_loadRegs_inRange hrange, rfl⟩
    · exact .inr ⟨_, exec_loadRegs_outOfRange hbeyond, by simp⟩
  | cls | jp | seImm | sneImm | seReg | ldImm | addImm | ldReg | orReg | andReg | xorReg | addReg | sub | shr | subn | shl
  | sneReg | ldI | jpV0 | rnd | skp | sknp | ldVxDt | ldVxK | ldDtVx | ldStVx | addI | ldF => exact .inl ⟨_, rfl, rfl⟩

/-- The state an instruction answers: completed, or the one it was given with a signal of codes 2 to 4 in its result. -/
theorem ok_or_signal_of_exec {i : Instr} {s t : State} (h : exec i s = .next t) :
    t.result = .ok ∨ (2 ≤ t.result.code ∧ t.result.code ≤ 4 ∧ t = { s with result := t.result }) := by
  rcases exec_ok_or_raises i s with ⟨u, hu, hok⟩ | ⟨r, hr, hcode⟩
  · cases hu.symm.trans h; exact .inl hok
  · cases hr.symm.trans h; exact .inr ⟨hcode.1, hcode.2, rfl⟩

/-! ## How a step ends (R200, R201, R205) -/

/-- R205: with no room for two bytes at `PC`, the step samples the inputs and raises the fetch's signal. -/
theorem step_of_fetchOutOfRange {s : State} (h : 0xFFF ≤ s.pc.toNat) :
    step s = .next { s.sample with result := .fetchOutOfRange s.pc } := by
  rcases step_cases s with ⟨-, hfetch⟩ | ⟨hlt, -⟩ | ⟨hlt, -⟩
  · exact hfetch
  · omega
  · omega

/-- R201: a word that no row selects is raised after the advance. -/
theorem step_of_not_wellFormed {s : State} {op : Word} (hop : s.fetch = some op) (h : wellFormedWord op = false) :
    step s = .next { s.sample.advance with result := .unimplemented op } := by
  simp only [step, fetch_sample, hop, decodeWord_none_of_not_wellFormed h, raise_eq]

/-- R79: a word that some row selects runs as its instruction. -/
theorem step_of_wellFormed {s : State} {op : Word} (hop : s.fetch = some op) (h : wellFormedWord op = true) :
    ∃ i, step s = exec i s.sample.advance := by
  obtain ⟨i, hi⟩ := exists_decodeWord_of_wellFormed h
  exact ⟨i, by simp only [step, fetch_sample, hop, hi]⟩

/-- A run of the model starts with its step. -/
theorem run_succ_of_step {s t : State} (h : step s = .next t) (k : Nat) :
    Host.Core.run core (k + 1) s = Host.Core.run core k t := by
  simp only [Host.Core.run, core, h]

/-! ## The obligations -/

/-- Settles O10, by induction on the number of steps: the first step changes the inputs and the result only, so the next one
meets the same `PC`. -/
theorem fetchOutOfRangeRepeatsForever : Obligations.FetchOutOfRangeRepeatsForever := by
  intro s hpc k
  induction k generalizing s with
  | zero => exact ⟨_, run_succ_of_step (step_of_fetchOutOfRange hpc) 0, rfl, rfl⟩
  | succ k ih =>
    rw [run_succ_of_step (step_of_fetchOutOfRange hpc)]
    exact ih { s.sample with result := .fetchOutOfRange s.pc } hpc

/-- Settles O11: the map's rows decide whether dispatch finds a handler, and no handler raises code 1. -/
theorem unimplementedWordIsReported : Obligations.UnimplementedWordIsReported := by
  refine fun s op hop => ⟨fun hnone => ⟨_, step_of_not_wellFormed hop hnone, rfl, rfl⟩, ?handled⟩
  case handled =>
    intro hsome t hstep w hresult
    obtain ⟨i, hi⟩ := step_of_wellFormed hop hsome
    rcases ok_or_signal_of_exec (hi.symm.trans hstep) with hok | ⟨hcode, -, -⟩
    · cases hok.symm.trans hresult
    · simp [hresult] at hcode

/-- Settles O13: the fetch's signal has code 5 and is raised before the advance; dispatch and the instructions raise codes
1 to 4 from the advanced state. -/
theorem signalsArePrecise : Obligations.SignalsArePrecise := by
  intro s t hstep hsignal
  rcases step_cases s with ⟨-, hfetch⟩ | ⟨-, op, -, -, hdispatch⟩ | ⟨-, op, i, -, -, hexec⟩
  · cases hfetch.symm.trans hstep
    exact .inr ⟨code_fetchOutOfRange _, rfl⟩
  · cases hdispatch.symm.trans hstep
    exact .inl ⟨by simp, by simp, rfl⟩
  · rcases ok_or_signal_of_exec (hexec.symm.trans hstep) with hok | ⟨hlow, hhigh, ht⟩
    · exact absurd hok hsignal
    · exact .inl ⟨by omega, hhigh, ht ▸ rfl⟩

end Sys2Proof.Machine
end

section
/-! SUPPORT for the statements on what an instruction may write or raise: everything an instruction can do, said once, as
the signals of 60_exceptions.md with their checks and, for each kind of completion, the state it completes with. -/

namespace Sys2Proof.Machine

open Sys2Proof.Claims

/-! ## Signals and completions -/

/-- R202 to R204, R209: the signals an instruction raises, with the check that raises them. -/
inductive Raises (s : State) : Instr → StepResult → Prop
  | ret (hempty : s.stack = []) : Raises s .ret (.stackUnderflow (encode .ret))
  | call {nnn} (hfull : 16 ≤ s.stack.length) : Raises s (.call nnn) (.stackOverflow (encode (.call nnn)))
  | drw {x y n} (hbeyond : ¬ (n.toNat = 0 ∨ s.index.toNat + n.toNat ≤ 0x1000)) :
      Raises s (.drw x y n) (.addressOutOfRange (encode (.drw x y n)))
  | ldB {x} (hbeyond : 0xFFF < s.index.toNat + 2) : Raises s (.ldB x) (.addressOutOfRange (encode (.ldB x)))
  | storeRegs {x} (hbeyond : 0xFFF < s.index.toNat + x.toNat) :
      Raises s (.storeRegs x) (.addressOutOfRange (encode (.storeRegs x)))
  | loadRegs {x} (hbeyond : 0xFFF < s.index.toNat + x.toNat) :
      Raises s (.loadRegs x) (.addressOutOfRange (encode (.loadRegs x)))

/-- R79: the states an instruction completes with (before the result `Ok` is latched), by what is written. Instructions that
write the same thing share a constructor, whose premises say which instructions these are. -/
inductive Completes (s : State) : Instr → State → Prop
  | cls : Completes s .cls { s with fb := clearDisplay }
  | ret {target rest} (hstack : s.stack = target :: rest) : Completes s .ret { s with pc := target, stack := rest }
  | jp {nnn} : Completes s (.jp nnn) (s.jump (zext16 nnn))
  | call {nnn} (hroom : s.stack.length < 16) :
      Completes s (.call nnn) { s with pc := zext16 nnn, stack := s.pc :: s.stack }
  | jpV0 {nnn} {b : Byte} : Completes s (.jpV0 nnn) (s.jump (zext16 nnn + b.setWidth 16))
  | skipIf {i c} (hpc : writesPc i = true) (hflag : writesFlag s.variant i = false) : Completes s i (s.skipIf c)
  | rewind {x} : Completes s (.ldVxK x) s.rewind
  | setReg {i x b} (hdest : isDestination x i = true) (hflag : writesFlag s.variant i = false) :
      Completes s i (s.setReg x b)
  | setRegThenFlag {i x b c} (hdest : isDestination x i = true) (hflag : writesFlag s.variant i = true) :
      Completes s i (writeResultThenFlag s x b (flagByte c))
  | drw {x y n} : Completes s (.drw x y n) { s with
      fb := (drwDrawing x y n s).fb, v := (s.setReg 0xF (flagByte (drwDrawing x y n s).collision)).v }
  | setIndex {i w} (hindex : writesIndex s.variant i = true) (hflag : writesFlag s.variant i = false) :
      Completes s i { s with index := w }
  | addI {x w c} : Completes s (.addI x) { s with index := w, v := (s.setReg 0xF (flagByte c)).v }
  | ldB {x} (hrange : s.index.toNat + 2 ≤ 0xFFF) :
      Completes s (.ldB x) { s with mem := writeBytes s.mem s.index.toNat (decimalDigits (s.reg x)) }
  | storeRegs {x} (hrange : s.index.toNat + x.toNat ≤ 0xFFF) : Completes s (.storeRegs x)
      { s with mem := writeBytes s.mem s.index.toNat (regsUpTo s x), index := indexAfterBlock s x }
  | loadRegs {x} : Completes s (.loadRegs x) { s with
      v := setRegsFrom s.v 0 (readBytes s.mem s.index.toNat (x.toNat + 1)), index := indexAfterBlock s x }
  | ldDtVx {x} : Completes s (.ldDtVx x) { s with dt := ⟨s.now, (s.reg x).toNat * s.quanta⟩ }
  | ldStVx {x} : Completes s (.ldStVx x) { s with st := ⟨s.now, (s.reg x).toNat * s.quanta⟩ }

/-! ## The completions that split on the state -/

/-- R161 to R163: under Variant A a plain write, under Variant B a write and the flag 0. -/
theorem completes_writeLogicResult {s : State} {i : Instr} {x : Nibble} (b : Byte) (hdest : isDestination x i = true)
    (hflag : writesFlag s.variant i = decide (s.variant = .B)) : Completes s i (writeLogicResult s x b) := by
  cases hv : s.variant with
  | A =>
    rw [s.writeLogicResult_A x b hv]
    exact .setReg hdest (hflag.trans (by simp [hv]))
  | B =>
    rw [s.writeLogicResult_B x b hv]
    exact .setRegThenFlag (c := false) hdest (hflag.trans (by simp [hv]))

/-- R132: the picked key is written, or `PC` goes back. -/
theorem completes_waitForKey (s : State) (x : Nibble) : Completes s (.ldVxK x) (waitForKey s x) := by
  rw [waitForKey]
  cases keyPick s.keys with
  | none => exact .rewind
  | some k => exact .setReg (decide_eq_true rfl) rfl

/-! ## Everything an instruction can do -/

/-- R79, R206: an instruction raises one of its signals from the state it was given, or completes. -/
theorem exec_cases (i : Instr) (s : State) : (∃ r, Raises s i r ∧ exec i s = raise r s) ∨
    ∃ u, Completes s i u ∧ exec i s = complete u := by
  cases i with
  | ret =>
    cases hstack : s.stack with
    | nil => exact .inl ⟨_, .ret hstack, exec_ret_empty hstack⟩
    | cons target rest => exact .inr ⟨_, .ret hstack, exec_ret_cons hstack⟩
  | call nnn =>
    rcases Nat.lt_or_ge s.stack.length 16 with hroom | hfull
    · exact .inr ⟨_, .call hroom, exec_call_room nnn hroom⟩
    · exact .inl ⟨_, .call hfull, exec_call_full nnn hfull⟩
  | drw x y n =>
    by_cases hrange : n.toNat = 0 ∨ s.index.toNat + n.toNat ≤ 0x1000
    · exact .inr ⟨_, .drw, exec_drw_inRange x y hrange⟩
    · exact .inl ⟨_, .drw hrange, exec_drw_outOfRange x y hrange⟩
  | ldB x =>
    rcases le_or_gt (s.index.toNat + 2) 0xFFF with hrange | hbeyond
    · exact .inr ⟨_, .ldB hrange, exec_ldB_inRange hrange⟩
    · exact .inl ⟨_, .ldB hbeyond, exec_ldB_outOfRange hbeyond⟩
  | storeRegs x =>
    rcases le_or_gt (s.index.toNat + x.toNat) 0xFFF with hrange | hbeyond
    · exact .inr ⟨_, .storeRegs hrange, exec_storeRegs_inRange hrange⟩
    · exact .inl ⟨_, .storeRegs hbeyond, exec_storeRegs_outOfRange hbeyond⟩
  | loadRegs x =>
    rcases le_or_gt (s.index.toNat + x.toNat) 0xFFF with hrange | hbeyond
    · exact .inr ⟨_, .loadRegs, exec_loadRegs_inRange hrange⟩
    · exact .inl ⟨_, .loadRegs hbeyond, exec_loadRegs_outOfRange hbeyond⟩
  | cls => exact .inr ⟨_, .cls, rfl⟩
  | jp nnn => exact .inr ⟨_, .jp, rfl⟩
  | jpV0 nnn => exact .inr ⟨_, .jpV0, rfl⟩
  | addI x => exact .inr ⟨_, .addI, rfl⟩
  | ldDtVx x => exact .inr ⟨_, .ldDtVx, rfl⟩
  | ldStVx x => exact .inr ⟨_, .ldStVx, rfl⟩
  | ldI | ldF => exact .inr ⟨_, .setIndex rfl rfl, rfl⟩
  | ldVxK x => exact .inr ⟨_, completes_waitForKey s x, rfl⟩
  | orReg x y | andReg x y | xorReg x y =>
    exact .inr ⟨_, completes_writeLogicResult _ (decide_eq_true rfl) rfl, rfl⟩
  | seImm | sneImm | seReg | sneReg | skp | sknp => exact .inr ⟨_, .skipIf rfl rfl, rfl⟩
  | ldImm x | addImm x | ldReg x | rnd x | ldVxDt x =>
    exact .inr ⟨_, .setReg (x := x) (decide_eq_true rfl) rfl, rfl⟩
  | addReg x | sub x | shr x | subn x | shl x =>
    exact .inr ⟨_, .setRegThenFlag (x := x) (decide_eq_true rfl) rfl, rfl⟩

/-- The state an instruction answers: the one it was given with a signal of its own, or a completed one. -/
theorem cases_of_exec {i : Instr} {s t : State} (h : exec i s = .next t) :
    (∃ r, Raises s i r ∧ t = { s with result := r }) ∨ ∃ u, Completes s i u ∧ t = { u with result := .ok } := by
  rcases exec_cases i s with ⟨r, hr, hexec⟩ | ⟨u, hu, hexec⟩
  · exact .inl ⟨r, hr, Host.Outcome.next.inj (h.symm.trans hexec)⟩
  · exact .inr ⟨u, hu, Host.Outcome.next.inj (h.symm.trans hexec)⟩

end Sys2Proof.Machine
end

section
/-! PROOFS for the statement on the state invariant (10_state.md R14, R33): the sampling, the advance, the signals and each
kind of completion keep it, so every step does. -/

namespace Sys2Proof.Machine

/-! ## What the start of a step keeps (R64, R65) -/

/-- R22: time only grows, so the sampling keeps both timers well formed. -/
theorem inv_sample {s : State} (h : s.Inv) : s.sample.Inv := by
  obtain ⟨hpc, hdepth, hreturns, hmem, ⟨hdtArmed, hdt⟩, ⟨hstArmed, hst⟩, hquanta⟩ := h
  exact ⟨hpc, hdepth, hreturns, hmem, ⟨Nat.le_add_right_of_le hdtArmed, hdt⟩, ⟨Nat.le_add_right_of_le hstArmed, hst⟩,
    hquanta⟩

/-- R65: from a `PC` that can fetch, the advance does not wrap. -/
theorem advance_pc_toNat {s : State} (h : s.pc.toNat < 0xFFF) : s.advance.pc.toNat = s.pc.toNat + 2 := by
  rw [State.advance_pc, BitVec.toNat_add]
  exact Nat.mod_eq_of_lt (show s.pc.toNat + 2 < 65536 by omega)

theorem inv_advance {s : State} (hpc : s.pc.toNat < 0xFFF) (h : s.Inv) : s.advance.Inv :=
  ⟨by rw [advance_pc_toNat hpc]; omega, h.2⟩

/-! ## What a completed instruction keeps -/

section Completed
variable {s u : State} {i : Instr} (h : Completes s i u)
include h

/-- R14: the largest target is that of the offset jump, 0xFFF + 0xFF. The bounds on the old `PC` are those after the
advance. -/
theorem Completes.pc_le (hlow : 2 ≤ s.pc.toNat) (hhigh : s.pc.toNat ≤ 0x1000)
    (hreturns : ∀ w ∈ s.stack, w.toNat ≤ 0x1000) : u.pc.toNat ≤ 0x10FE := by
  have hkept : s.pc.toNat ≤ 0x10FE := by omega
  cases h with
  | @ret target _ hstack =>
    have htarget : target.toNat ≤ 0x1000 := hreturns target (by simp [hstack])
    exact htarget.trans (by decide)
  | @jp nnn | @call nnn =>
    have htarget : (zext16 nnn).toNat < 0x1000 := zext16_toNat nnn ▸ nnn.isLt
    exact htarget.le.trans (by decide)
  | @jpV0 nnn b =>
    have hnnn : nnn.toNat < 0x1000 := nnn.isLt
    have hb : b.toNat < 0x100 := b.isLt
    rw [State.jump_pc, zext16_add_toNat]
    omega
  | @skipIf _ c =>
    cases c with
    | false => exact hkept
    | true => rw [State.skipIf_pc, if_pos rfl]; bv_omega
  | rewind => rw [State.rewind_pc]; bv_omega
  | _ => exact hkept

/-- R15, R100: a call adds the advanced `PC` to a stack with room, a return takes an entry off. -/
theorem Completes.stack_bounds (hhigh : s.pc.toNat ≤ 0x1000) (hdepth : s.stack.length ≤ stackDepth)
    (hreturns : ∀ w ∈ s.stack, w.toNat ≤ 0x1000) :
    u.stack.length ≤ stackDepth ∧ ∀ w ∈ u.stack, w.toNat ≤ 0x1000 := by
  cases h with
  | ret hstack =>
    rw [hstack] at hdepth hreturns
    exact ⟨Nat.le_of_succ_le hdepth, fun w hw => hreturns w (List.mem_cons_of_mem _ hw)⟩
  | call hroom => exact ⟨hroom, List.forall_mem_cons.2 ⟨hhigh, hreturns⟩⟩
  | _ => exact ⟨hdepth, hreturns⟩

/-- R48: the two stores keep the canonical form, as they write inside memory. -/
theorem Completes.mem_wf (hmem : Memory.wf s.mem) : Memory.wf u.mem := by
  cases h with
  | ldB hrange => exact writeBytes_wf _ (by rw [decimalDigits_length]; omega) hmem
  | storeRegs hrange => exact writeBytes_wf _ (by rw [regsUpTo_length]; omega) hmem
  | _ => exact hmem

/-- R33 (d), R155, R156: a timer is armed at `now` with at most 255 units. -/
theorem Completes.timers_wf (hdt : s.dt.wf s.quanta s.now) (hst : s.st.wf s.quanta s.now) :
    u.dt.wf u.quanta u.now ∧ u.st.wf u.quanta u.now := by
  have harmed (b : Byte) : Timer.wf ⟨s.now, b.toNat * s.quanta⟩ s.quanta s.now :=
    ⟨le_rfl, Nat.mul_le_mul_right _ (Nat.le_of_lt_succ b.isLt)⟩
  cases h with
  | ldDtVx => exact ⟨harmed _, hst⟩
  | ldStVx => exact ⟨hdt, harmed _⟩
  | _ => exact ⟨hdt, hst⟩

theorem Completes.quanta_eq : u.quanta = s.quanta := by cases h <;> rfl

end Completed

/-- R33: an instruction keeps the invariant, from a `PC` that the advance from a fetched address reaches. -/
theorem inv_of_exec {i : Instr} {s t : State} (hlow : 2 ≤ s.pc.toNat) (hhigh : s.pc.toNat ≤ 0x1000) (hinv : s.Inv)
    (h : exec i s = .next t) : t.Inv := by
  rcases cases_of_exec h with ⟨r, -, rfl⟩ | ⟨u, hu, rfl⟩
  · exact hinv
  · obtain ⟨-, hdepth, hreturns, hmem, hdt, hst, hquanta⟩ := hinv
    obtain ⟨hdepth', hreturns'⟩ := hu.stack_bounds hhigh hdepth hreturns
    obtain ⟨hdt', hst'⟩ := hu.timers_wf hdt hst
    exact ⟨hu.pc_le hlow hhigh hreturns, hdepth', hreturns', hu.mem_wf hmem, hdt', hst', hu.quanta_eq ▸ hquanta⟩

/-! ## The obligation -/

/-- Settles O7: the invariant goes through the sampling and the advance, and then through the signal or the instruction. -/
theorem stepKeepsStateInvariant : Obligations.StepKeepsStateInvariant := by
  intro s t hinv hstep
  have hsample : s.sample.Inv := inv_sample hinv
  have hadvance (hpc : s.pc.toNat < 0xFFF) : s.sample.advance.Inv := inv_advance (s := s.sample) hpc hsample
  rcases step_cases s with ⟨-, hfetch⟩ | ⟨hpc, op, -, -, hdispatch⟩ | ⟨hpc, op, i, -, -, hexec⟩
  · cases hfetch.symm.trans hstep
    exact hsample
  · cases hdispatch.symm.trans hstep
    exact hadvance hpc
  · have hnext : s.sample.advance.pc.toNat = s.pc.toNat + 2 := advance_pc_toNat (s := s.sample) hpc
    exact inv_of_exec (by omega) (by omega) (hadvance hpc) (hexec.symm.trans hstep)

end Sys2Proof.Machine
end

section
/-! SUPPORT and PROOFS for the statements on what reset answers (70_reset_and_hazards.md R230 to R232; 10_state.md R33): the
load error, the one state a reset can answer, and the invariant of it. -/

namespace Sys2Proof.Machine

/-! ## Everything a reset can answer (R230 to R232) -/

/-- R232: no state is built from an image that does not fit. -/
theorem powerOn_of_oversized {image : List Byte} (h : 3584 < image.length) (sel now : Nat) :
    powerOn image sel now = .error .oversized := by
  simp only [powerOn, wellFormedImage, Nat.not_le.2 h, decide_false, Bool.false_eq_true, if_false]

/-- A reset that answers a state was given an image that fits, and the state is the one built from it (R230, R231). -/
theorem eq_of_powerOn_ok {image : List Byte} {sel now : Nat} {s : State} (h : powerOn image sel now = .ok s) :
    image.length ≤ 3584 ∧ s = { State.reset with
      mem := loadImage image
      variant := latchVariant sel
      now := now
      dt := ⟨now, 0⟩
      st := ⟨now, 0⟩ } := by
  rcases le_or_gt image.length 3584 with hfits | hover
  · exact ⟨hfits, Except.ok.inj (h.symm.trans (powerOn_of_fits hfits sel now))⟩
  · cases h.symm.trans (powerOn_of_oversized hover sel now)

/-- R231: loading an image that fits lists no cell beyond memory. -/
theorem loadImage_wf {image : List Byte} (h : image.length ≤ 3584) : Memory.wf (loadImage image) :=
  writeBytes_wf image (by simp only [progBase]; omega) wf_nil

/-! ## The obligations -/

/-- Settles O5: the timers are armed at time 0 with no duration, and nothing is listed in memory. -/
theorem resetMeetsInvariant : Obligations.ResetMeetsInvariant :=
  ⟨by decide, by decide, by simp [State.reset], wf_nil, ⟨le_rfl, Nat.zero_le _⟩, ⟨le_rfl, Nat.zero_le _⟩,
    Nat.le_add_left 1 Config.quantaPred⟩

/-- Settles O6: only memory and the timers need an argument beyond that of O5. -/
theorem everyResetMeetsInvariant : Obligations.EveryResetMeetsInvariant := by
  intro image sel now s h
  obtain ⟨hfits, rfl⟩ := eq_of_powerOn_ok h
  obtain ⟨hpc, hdepth, hreturns, -, -, -, hquanta⟩ := resetMeetsInvariant
  exact ⟨hpc, hdepth, hreturns, loadImage_wf hfits, ⟨le_rfl, Nat.zero_le _⟩, ⟨le_rfl, Nat.zero_le _⟩, hquanta⟩

/-- Settles O3, by whether the image fits. -/
theorem resetRejectsOversizedImage : Obligations.ResetRejectsOversizedImage := by
  refine fun image sel now => ⟨fun herror => ?rejected, fun hover => powerOn_of_oversized hover sel now⟩
  case rejected =>
    by_contra hfits
    cases herror.symm.trans (powerOn_of_fits (Nat.not_lt.1 hfits) sel now)

/-- Settles O4: the state that `powerOn` builds differs from `State.reset` in the five fields named. -/
theorem resetDiffersOnlyByItsInputs : Obligations.ResetDiffersOnlyByItsInputs := by
  intro image sel now s h
  obtain ⟨-, rfl⟩ := eq_of_powerOn_ok h
  rfl

end Sys2Proof.Machine
end

section
/-! SUPPORT and PROOFS for the statements on the encoding (30_encoding.md R60 to R74, R78): the two directions of the round
trip, the rows of the opcode map, and the words without a handler. -/

namespace Sys2Proof

open Sys2Proof.Machine

/-! ## The second levels read every field they do not key on (R67 to R70) -/

section SecondLevels
variable {op : Word} {i : Instr}

theorem encode_of_decodeCat0 (h : decodeCat0 op = some i) : encode i = encodeAddr 0x0 (fieldNNN op) := by
  unfold decodeCat0 at h
  split at h <;> cases h <;> simp only [*] <;> rfl

theorem encode_of_decodeCat8 (h : decodeCat8 op = some i) :
    encode i = encodeRegReg 0x8 (fieldX op) (fieldY op) (fieldN op) := by
  unfold decodeCat8 at h
  split at h <;> cases h <;> simp only [*] <;> rfl

theorem encode_of_decodeCatE (h : decodeCatE op = some i) :
    encode i = encodeRegImm 0xE (fieldX op) (fieldKK op) := by
  unfold decodeCatE at h
  split at h <;> cases h <;> simp only [*] <;> rfl

theorem encode_of_decodeCatF (h : decodeCatF op = some i) :
    encode i = encodeRegImm 0xF (fieldX op) (fieldKK op) := by
  unfold decodeCatF at h
  split at h <;> cases h <;> simp only [*] <;> rfl

end SecondLevels

/-! ## The ignored nibble (R71) -/

theorem clear_low_nibble (op : Word) : op &&& 0xFFF0 = encodeRegReg (fieldCat op) (fieldX op) (fieldY op) 0x0 := by
  have hmask : (0xFFF0 : Word) = 0xF#4 ++ 0xF#4 ++ 0xF#4 ++ 0x0#4 := rfl
  conv_lhs => rw [← encodeRegReg_fields op, hmask, encodeRegReg]
  rw [BitVec.and_append, BitVec.and_append, BitVec.and_append]
  simp [encodeRegReg, nibble_and_ones]

/-- R71, R72: the encoder gives a decoded word back, with the ignored nibble of categories 5 and 9 cleared. -/
theorem encode_of_decodeWord {op : Word} {i : Instr} (h : decodeWord op = some i) :
    encode i = if fieldCat op = 0x5 ∨ fieldCat op = 0x9 then op &&& 0xFFF0 else op := by
  have hAddr := encodeAddr_fields op
  have hRegImm := encodeRegImm_fields op
  have hRegReg := encodeRegReg_fields op
  have hCleared := clear_low_nibble op
  rcases category_cases (fieldCat op) with hc | hc | hc | hc | hc
  · rw [encode_of_decodeCat0 (by simpa [decodeWord, hc] using h), ← hc, hAddr, hc]; rfl
  · rw [encode_of_decodeCat8 (by simpa [decodeWord, hc] using h), ← hc, hRegReg, hc]; rfl
  · rw [encode_of_decodeCatE (by simpa [decodeWord, hc] using h), ← hc, hRegImm, hc]; rfl
  · rw [encode_of_decodeCatF (by simpa [decodeWord, hc] using h), ← hc, hRegImm, hc]; rfl
  · rcases hc with hc | hc | hc | hc | hc | hc | hc | hc | hc | hc | hc | hc
    all_goals
      simp only [hc, BitVec.ofNat_eq_ofNat] at hAddr hRegImm hRegReg hCleared
      simp only [decodeWord, hc, BitVec.ofNat_eq_ofNat, Option.some.injEq] at h
      subst h
      simp [encode, hc, hAddr, hRegImm, hRegReg, hCleared]

/-! ## The rows are disjoint, and do not read an ignored nibble (R71, R74) -/

/-- R74, R78: two rows of the map differ in a bit that both of them key on. -/
theorem opcodeRows_conflict : ∀ r ∈ opcodeRows, ∀ r' ∈ opcodeRows,
    r.pattern &&& r'.mask = r'.pattern &&& r.mask → r = r' := by
  decide

theorem opcodeRows_disjoint {op : Word} {r r' : OpcodeRow} (hr : r ∈ opcodeRows) (hr' : r' ∈ opcodeRows)
    (h : r.selects op = true) (h' : r'.selects op = true) : r = r' := by
  rw [OpcodeRow.selects, beq_iff_eq] at h h'
  refine opcodeRows_conflict r hr r' hr' ?_
  rw [← h, ← h', BitVec.and_assoc, BitVec.and_assoc, BitVec.and_comm r.mask]

/-- R78: every row keys on the category; the rows of categories 5 and 9 key on no bit of the low nibble. -/
theorem opcodeRows_ignored : ∀ r ∈ opcodeRows, fieldCat r.mask = 0xF ∧
    (fieldCat r.pattern = 0x5 ∨ fieldCat r.pattern = 0x9 → 0xFFF0 &&& r.mask = r.mask) := by
  decide

theorem fieldCat_and (a b : Word) : fieldCat (a &&& b) = fieldCat a &&& fieldCat b := BitVec.extractLsb'_and

theorem fieldCat_pattern_of_selects {op : Word} {r : OpcodeRow} (hr : r ∈ opcodeRows) (h : r.selects op = true) :
    fieldCat r.pattern = fieldCat op := by
  rw [OpcodeRow.selects, beq_iff_eq] at h
  rw [← h, fieldCat_and, (opcodeRows_ignored r hr).1]
  exact nibble_and_ones _

/-- R71: clearing the nibble that categories 5 and 9 ignore leaves a word in its rows. -/
theorem selects_clear_low_nibble {op : Word} {r : OpcodeRow} (hr : r ∈ opcodeRows)
    (hcat : fieldCat op = 0x5 ∨ fieldCat op = 0x9) : r.selects (op &&& 0xFFF0) = r.selects op := by
  by_cases hrow : fieldCat r.pattern = 0x5 ∨ fieldCat r.pattern = 0x9
  · rw [OpcodeRow.selects, OpcodeRow.selects, BitVec.and_assoc, (opcodeRows_ignored r hr).2 hrow]
  · have hfalse {w : Word} (hw : fieldCat w = fieldCat op) : r.selects w = false := by
      rw [← Bool.not_eq_true]
      intro hsel
      rw [fieldCat_pattern_of_selects hr hsel, hw] at hrow
      exact hrow hcat
    rw [hfalse rfl, hfalse (by rw [clear_low_nibble, fieldCat_encodeRegReg])]

/-! ## The words without a handler (R72) -/

/-- R68: the low nibbles that category 8 has no handler for. -/
theorem not_mem_cat8Keys : ∀ n : Nibble, n ∉ cat8Keys ↔ n ∈ [0x8#4, 0x9#4, 0xA#4, 0xB#4, 0xC#4, 0xD#4, 0xF#4] := by
  decide

theorem decodeWord_eq_none_iff (op : Word) : decodeWord op = none ↔
    (fieldCat op = 0x0 ∧ fieldNNN op ≠ 0x0E0 ∧ fieldNNN op ≠ 0x0EE) ∨
    (fieldCat op = 0x8 ∧ fieldN op ∈ [0x8#4, 0x9#4, 0xA#4, 0xB#4, 0xC#4, 0xD#4, 0xF#4]) ∨
    (fieldCat op = 0xE ∧ fieldKK op ∉ [0x9E#8, 0xA1#8]) ∨
    (fieldCat op = 0xF ∧ fieldKK op ∉ [0x07#8, 0x0A#8, 0x15#8, 0x18#8, 0x1E#8, 0x29#8, 0x33#8, 0x55#8, 0x65#8]) := by
  rw [← Option.not_isSome_iff_eq_none, decodeWord_isSome, wellFormedWord_iff, ← not_mem_cat8Keys]
  rcases category_cases (fieldCat op) with hc | hc | hc | hc | hc
  · simp [hc, cat0Keys]
  · simp [hc]
  · simp [hc, catEKeys]
  · simp [hc, catFKeys]
  · rcases hc with hc | hc | hc | hc | hc | hc | hc | hc | hc | hc | hc | hc <;> simp [hc]

/-! ## The obligations -/

/-- Settles O15: each instruction's word decodes to it, by the lemma on its format. -/
theorem decodeUndoesEncode : Obligations.DecodeUndoesEncode
  | .cls => decodeWord_cls
  | .ret => returnFromSubroutine.1
  | .jp nnn => decodeWord_jp nnn
  | .call nnn => decodeWord_call nnn
  | .seImm x kk => decodeWord_seImm x kk
  | .sneImm x kk => decodeWord_sneImm x kk
  | .seReg x y => decodeWord_seReg x y 0x0
  | .ldImm x kk => decodeWord_ldImm x kk
  | .addImm x kk => decodeWord_addImm x kk
  | .ldReg x y => decodeWord_ldReg x y
  | .orReg x y => decodeWord_orReg x y
  | .andReg x y => decodeWord_andReg x y
  | .xorReg x y => decodeWord_xorReg x y
  | .addReg x y => decodeWord_addReg x y
  | .sub x y => decodeWord_sub x y
  | .shr x y => decodeWord_shr x y
  | .subn x y => decodeWord_subn x y
  | .shl x y => decodeWord_shl x y
  | .sneReg x y => decodeWord_sneReg x y 0x0
  | .ldI nnn => decodeWord_ldI nnn
  | .jpV0 nnn => decodeWord_jpV0 nnn
  | .rnd x kk => decodeWord_rnd x kk
  | .drw x y n => decodeWord_drw x y n
  | .skp x => decodeWord_skp x
  | .sknp x => decodeWord_sknp x
  | .ldVxDt x => decodeWord_ldVxDt x
  | .ldVxK x => decodeWord_ldVxK x
  | .ldDtVx x => decodeWord_ldDtVx x
  | .ldStVx x => decodeWord_ldStVx x
  | .addI x => decodeWord_addI x
  | .ldF x => decodeWord_ldF x
  | .ldB x => decodeWord_ldB x
  | .storeRegs x => decodeWord_storeRegs x
  | .loadRegs x => decodeWord_loadRegs x

/-- Settles O16, by `encode_of_decodeWord`. -/
theorem encodeUndoesDecode : Obligations.EncodeUndoesDecode := fun _ _ h => encode_of_decodeWord h

/-- Settles O17: the rows see the same key bits in a word and in its instruction's encoding, which differ in the ignored
nibble at most. -/
theorem decoderFollowsOpcodeMap : Obligations.DecoderFollowsOpcodeMap := by
  refine ⟨decodeWord_isSome, fun op r hr r' hr' => opcodeRows_disjoint hr hr', fun op i r hr hdecode => ?sameRows,
    decodeWord_eq_none_iff⟩
  case sameRows =>
    rw [encode_of_decodeWord hdecode]
    split
    · exact (selects_clear_low_nibble hr ‹_›).symm
    · rfl

/-- Settles O18, by running the decoder on the ten words. -/
theorem wordsDecodeAsTheMapSays : Obligations.WordsDecodeAsTheMapSays := by
  unfold Obligations.WordsDecodeAsTheMapSays
  decide

end Sys2Proof
end

section
/-! PROOFS for the statements on signals and on what each instruction leaves unchanged (60_exceptions.md R200, R209;
10_state.md R10 to R19; 20_memory.md R48): each is read off from the completions, a signal leaving everything unchanged. -/

namespace Sys2Proof.Machine

open Sys2Proof.Claims

/-! ## What a completed instruction leaves unchanged -/

/-- A register that is no destination of an instruction is not the destination it writes. -/
theorem ne_of_isDestination {i : Instr} {r x : Nibble} (hr : isDestination r i = false) (hx : isDestination x i = true) :
    r ≠ x := by
  rintro rfl
  simp [hx] at hr

/-- R11: a flag that has been written reads as 0 or 1. -/
theorem reg_setFlag_zero_or_one (s : State) (c : Bool) :
    (s.setReg 0xF (flagByte c)).reg 0xF = 0x00 ∨ (s.setReg 0xF (flagByte c)).reg 0xF = 0x01 := by
  rw [State.reg_setReg, if_pos rfl]
  exact flagByte_zero_or_one c

section Completed
variable {s u : State} {i : Instr} (h : Completes s i u)
include h

/-- R10: a completed instruction writes its destinations, and `VF` if it writes a flag. -/
theorem Completes.reg_eq {r : Nibble} (hdest : isDestination r i = false)
    (hflag : r = 0xF → writesFlag s.variant i = false) : u.reg r = s.reg r := by
  cases h with
  | @setReg _ x b hx =>
    rw [State.reg_setReg, if_neg (ne_of_isDestination hdest hx)]
  | @setRegThenFlag _ x b c hx hwrites =>
    have hneF : r ≠ 0xF := fun hF => by simp [hflag hF] at hwrites
    rw [State.reg_writeResultThenFlag, if_neg hneF, if_neg (ne_of_isDestination hdest hx)]
  | drw | addI =>
    have hneF : r ≠ 0xF := fun hF => by simpa [writesFlag] using hflag hF
    exact (s.reg_setReg 0xF r _).trans (if_neg hneF)
  | @loadRegs x =>
    have habove : ¬ r.toNat ≤ x.toNat := by simpa [isDestination] using hdest
    exact (setRegsFrom_readBytes_getElem s.mem _ s.v r).trans (if_neg habove)
  | _ => rfl

/-- R11: a flag is written last, as 0 or 1. -/
theorem Completes.flag_zero_or_one (hflag : writesFlag s.variant i = true) : u.reg 0xF = 0x00 ∨ u.reg 0xF = 0x01 := by
  cases h with
  | @setRegThenFlag _ x b c => exact reg_setFlag_zero_or_one (s.setReg x b) c
  | drw | addI => exact reg_setFlag_zero_or_one s _
  | skipIf _ hnone | setReg _ hnone | setIndex _ hnone => simp [hnone] at hflag
  | _ => simp [writesFlag] at hflag

theorem Completes.mem_eq (hstore : storesMemory i = false) : u.mem = s.mem := by
  cases h with
  | ldB | storeRegs => simp [storesMemory] at hstore
  | _ => rfl

theorem Completes.index_eq (hindex : writesIndex s.variant i = false) : u.index = s.index := by
  cases h with
  | setIndex hwrites => simp [hwrites] at hindex
  | addI => simp [writesIndex] at hindex
  | storeRegs | loadRegs =>
    cases hv : s.variant with
    | A => simp [writesIndex, hv] at hindex
    | B => exact indexAfterBlock_B hv
  | _ => rfl

theorem Completes.pc_eq (hpc : writesPc i = false) : u.pc = s.pc := by
  cases h with
  | skipIf hwrites => simp [hwrites] at hpc
  | ret | jp | call | jpV0 | rewind => simp [writesPc] at hpc
  | _ => rfl

theorem Completes.stack_eq (hcall : ∀ nnn, i ≠ .call nnn) (hret : i ≠ .ret) : u.stack = s.stack := by
  cases h with
  | ret => exact absurd rfl hret
  | call => exact absurd rfl (hcall _)
  | _ => rfl

theorem Completes.fb_eq (hcls : i ≠ .cls) (hdrw : ∀ x y n, i ≠ .drw x y n) : u.fb = s.fb := by
  cases h with
  | cls => exact absurd rfl hcls
  | drw => exact absurd rfl (hdrw _ _ _)
  | _ => rfl

theorem Completes.dt_eq (hdt : ∀ x, i ≠ .ldDtVx x) : u.dt = s.dt := by
  cases h with
  | ldDtVx => exact absurd rfl (hdt _)
  | _ => rfl

theorem Completes.st_eq (hst : ∀ x, i ≠ .ldStVx x) : u.st = s.st := by
  cases h with
  | ldStVx => exact absurd rfl (hst _)
  | _ => rfl

end Completed

/-- No instruction raises `Ok`. -/
theorem Raises.ne_ok {s : State} {i : Instr} {r : StepResult} (h : Raises s i r) : r ≠ .ok := by
  cases h <;> simp

/-! ## The obligations -/

/-- Settles O14: the six ways to raise a signal, each with its check. -/
theorem signalsComeFromTheirInstructions : Obligations.SignalsComeFromTheirInstructions := by
  intro i s t hexec
  rcases cases_of_exec hexec with ⟨r, hr, rfl⟩ | ⟨u, -, rfl⟩
  · cases hr with
    | ret hempty => exact ⟨rfl, rfl, hempty⟩
    | call hfull => exact ⟨⟨_, rfl⟩, rfl, hfull⟩
    | drw hbeyond => exact ⟨rfl, .inl ⟨_, _, _, rfl, by omega, by omega⟩⟩
    | ldB hbeyond => exact ⟨rfl, .inr (.inl ⟨_, rfl, hbeyond⟩)⟩
    | storeRegs hbeyond => exact ⟨rfl, .inr (.inr ⟨_, .inl rfl, hbeyond⟩)⟩
    | loadRegs hbeyond => exact ⟨rfl, .inr (.inr ⟨_, .inr rfl, hbeyond⟩)⟩
  · trivial

/-- Settles O35: an instruction whose result is `Ok` has completed. -/
theorem flagIsZeroOrOne : Obligations.FlagIsZeroOrOne := by
  intro i s t hflag hexec hok
  rcases cases_of_exec hexec with ⟨r, hr, rfl⟩ | ⟨u, hu, rfl⟩
  · exact absurd hok hr.ne_ok
  · exact hu.flag_zero_or_one hflag

/-- Settles O52: a signal changes no register, and for a completion this is `Completes.reg_eq`. -/
theorem onlyDestinationAndFlagRegistersChange : Obligations.OnlyDestinationAndFlagRegistersChange := by
  intro i s t r hexec hdest hflag
  rcases cases_of_exec hexec with ⟨_, -, rfl⟩ | ⟨u, hu, rfl⟩
  · rfl
  · exact hu.reg_eq hdest hflag

/-- Settles O53: the two stores write the bytes their ranges name, and the others leave the cells as they are. -/
theorem onlyStoredBytesChange : Obligations.OnlyStoredBytesChange := by
  refine ⟨fun i s t hexec hstore a => ?others, fun x s t hexec a ha => ?digits, fun x s t hexec a ha => ?block⟩
  case others =>
    rcases cases_of_exec hexec with ⟨_, -, rfl⟩ | ⟨u, hu, rfl⟩
    · rfl
    · rw [hu.mem_eq hstore]
  case digits =>
    rcases cases_of_exec hexec with ⟨_, -, rfl⟩ | ⟨u, hu, rfl⟩
    · rfl
    · cases hu with
      | ldB => exact readByte_writeBytes_outside s.mem ha
      | _ => rfl
  case block =>
    rcases cases_of_exec hexec with ⟨_, -, rfl⟩ | ⟨u, hu, rfl⟩
    · rfl
    · cases hu with
      | storeRegs => exact readByte_writeBytes_regsUpTo_outside s.mem (by omega)
      | _ => rfl

/-- Settles O54: a signal leaves `I` and the advanced `PC`, and a completion writes them as `Completes.index_eq` and
`Completes.pc_eq` say. -/
theorem onlyNamedInstructionsWriteIndexAndPc : Obligations.OnlyNamedInstructionsWriteIndexAndPc := by
  intro i s t hexec
  rcases cases_of_exec hexec with ⟨_, -, rfl⟩ | ⟨u, hu, rfl⟩
  · exact ⟨fun _ => rfl, fun _ => rfl⟩
  · exact ⟨hu.index_eq, hu.pc_eq⟩

/-- Settles O55: each of the four fields has its own lemma on completions, and a signal changes none of them. -/
theorem onlyNamedInstructionsWriteStackDisplayTimers : Obligations.OnlyNamedInstructionsWriteStackDisplayTimers := by
  intro i s t hexec
  rcases cases_of_exec hexec with ⟨_, -, rfl⟩ | ⟨u, hu, rfl⟩
  · exact ⟨fun _ _ => rfl, fun _ _ => rfl, fun _ => rfl, fun _ => rfl⟩
  · exact ⟨hu.stack_eq, hu.fb_eq, hu.dt_eq, hu.st_eq⟩

end Sys2Proof.Machine
end

section
/-! PROOFS for the statement on what the variants share (47_variants.md R182, R184): outside the eight variant-sensitive
encodings the variant goes through an instruction unread. -/

namespace Sys2Proof.Machine

open Sys2Proof.Claims

/-- An outcome with the variant of its next state replaced. -/
def withVariant (v : Variant) : Host.Outcome State Fault Refusal → Host.Outcome State Fault Refusal
  | .next t => .next { t with variant := v }
  | o => o

/-- An instruction that answers the same state but for the variant. -/
theorem eq_withVariant {o o' : Host.Outcome State Fault Refusal} {t : State} {v : Variant} (h : o = .next t)
    (h' : o' = .next { t with variant := v }) : o' = withVariant v o := by
  rw [h, h', withVariant]

/-- R184: outside the eight encodings, running under another variant changes the variant of the answer and nothing else. -/
theorem exec_withVariant {i : Instr} (h : variantSensitive i = false) (s : State) (v : Variant) :
    exec i { s with variant := v } = withVariant v (exec i s) := by
  cases i with
  | shr | shl | jpV0 | storeRegs | loadRegs | orReg | andReg | xorReg => simp [variantSensitive] at h
  | ret =>
    by_cases hempty : s.stack = []
    · exact eq_withVariant (exec_ret_empty hempty) (exec_ret_empty hempty)
    · obtain ⟨target, rest, hstack⟩ := List.exists_cons_of_ne_nil hempty
      exact eq_withVariant (exec_ret_cons hstack) (exec_ret_cons hstack)
  | call nnn =>
    rcases Nat.lt_or_ge s.stack.length 16 with hroom | hfull
    · exact eq_withVariant (exec_call_room nnn hroom) (exec_call_room nnn hroom)
    · exact eq_withVariant (exec_call_full nnn hfull) (exec_call_full nnn hfull)
  | drw x y n =>
    by_cases hrange : n.toNat = 0 ∨ s.index.toNat + n.toNat ≤ 0x1000
    · exact eq_withVariant (exec_drw_inRange x y hrange) (exec_drw_inRange x y hrange)
    · exact eq_withVariant (exec_drw_outOfRange x y hrange) (exec_drw_outOfRange x y hrange)
  | ldB x =>
    rcases le_or_gt (s.index.toNat + 2) 0xFFF with hrange | hbeyond
    · exact eq_withVariant (exec_ldB_inRange hrange) (exec_ldB_inRange hrange)
    · exact eq_withVariant (exec_ldB_outOfRange hbeyond) (exec_ldB_outOfRange hbeyond)
  | ldVxK x =>
    by_cases hkeys : s.keys = 0
    · exact eq_withVariant (exec_ldVxK_noKey x hkeys) (exec_ldVxK_noKey x hkeys)
    · obtain ⟨b, hpick⟩ := exists_keyPick hkeys
      exact eq_withVariant (exec_ldVxK_picked x hpick) (exec_ldVxK_picked x hpick)
  | cls | jp | seImm | sneImm | seReg | ldImm | addImm | ldReg | addReg | sub | subn | sneReg | ldI | rnd | skp | sknp
  | ldVxDt | ldDtVx | ldStVx | addI | ldF => rfl

/-- Settles O57: both variants answer what the state's own variant answers, but for the variant itself. -/
theorem variantsAgreeOutsideEightEncodings : Obligations.VariantsAgreeOutsideEightEncodings := by
  intro i s t hshared hA
  calc exec i { s with variant := .B }
    _ = withVariant .B (exec i { s with variant := .A }) := exec_withVariant hshared { s with variant := .A } .B
    _ = .next { t with variant := .B } := by rw [hA]; rfl

end Sys2Proof.Machine
end

section
/-! PROOFS for the statements on the step (30_encoding.md R64 to R79) and the end of a run (70_reset_and_hazards.md R239). -/

namespace Sys2Proof.Machine

open Sys2Proof.Claims

/-- R79: a fetched word that decodes runs as its instruction. -/
theorem step_of_decodeWord {s : State} {op : Word} {i : Instr} (hop : s.fetch = some op) (hi : decodeWord op = some i) :
    step s = exec i s.sample.advance := by
  simp only [step, fetch_sample, hop, hi]

/-! ## The self-jump (R239) -/

/-- A program that has ended has a `PC` from which two bytes can be fetched. -/
theorem pc_lt_of_ended {s : State} (h : s.ended) : s.pc.toNat < 0x1000 := by
  by_contra hbeyond
  have hnone : s.fetch = none := by rw [fetch_eq, if_neg (by omega)]
  cases hnone.symm.trans h

/-- R101: the word of a jump to a 12-bit address. -/
theorem jump_word_eq (nnn : Addr12) : 0x1000#16 ||| zext16 nnn = encodeAddr 0x1 nnn := rfl

theorem zext16_setWidth {w : Word} (h : w.toNat < 0x1000) : zext16 (w.setWidth 12) = w := by
  apply BitVec.eq_of_toNat_eq
  rw [zext16_toNat, BitVec.toNat_setWidth]
  exact Nat.mod_eq_of_lt h

/-- R239: at the end of a run the step executes `JP PC`. -/
theorem step_of_ended {s : State} (h : s.ended) : step s = .next { s.sample with result := .ok } := by
  have hpc : zext16 (s.pc.setWidth 12) = s.pc := zext16_setWidth (pc_lt_of_ended h)
  have hfetch : s.fetch = some (encodeAddr 0x1 (s.pc.setWidth 12)) := by rw [← jump_word_eq, hpc]; exact h
  rw [step_of_decodeWord hfetch (decodeWord_jp _), exec_jp, hpc]
  rfl

/-! ## The obligations -/

/-- Settles O8: the word at `PC` is the one fetched. -/
theorem stepRunsDecodedInstruction : Obligations.StepRunsDecodedInstruction :=
  fun _ _ hrange hdecode => step_of_decodeWord (fetch_of_inRange hrange) hdecode

/-- Settles O12: the two signals of a step are next states, and so is what an instruction answers. -/
theorem stepIsTotal : Obligations.StepIsTotal := by
  intro s
  rcases step_cases s with ⟨-, hfetch⟩ | ⟨-, op, -, -, hdispatch⟩ | ⟨-, op, i, -, -, hexec⟩
  · exact ⟨_, hfetch⟩
  · exact ⟨_, hdispatch⟩
  · obtain ⟨t, ht, -⟩ := exec_environment i s.sample.advance
    exact ⟨t, hexec.trans ht⟩

/-- Settles O59: after the jump `PC` and memory are as before, so the same word is fetched. -/
theorem selfJumpIsFixedPoint : Obligations.SelfJumpIsFixedPoint :=
  fun _ h => ⟨_, step_of_ended h, rfl, rfl, h⟩

end Sys2Proof.Machine
end

section
/-! PROOFS for the statements on the memory controller (20_memory.md R44, R45, R55): the accesses in range and outside, and a
store that the next fetch reads. -/

namespace Sys2Proof.Machine

/-- Settles O42, by the range check; in range, the bytes are those of `readBytes` and `writeBytes`. -/
theorem memoryAccessesAreExactOrNone : Obligations.MemoryAccessesAreExactOrNone := by
  refine ⟨fun m a n hn hbeyond => ?readOutside, fun m a => ?readNothing, fun m a n hn hrange => ?readInside,
    fun m a bs hne hbeyond => ?writeOutside, fun m a bs hne hrange => ?writeInside⟩
  case readOutside => rw [memRead_eq, if_neg (by omega)]
  case readNothing => rw [memRead_eq, if_pos (.inl rfl)]; rfl
  case readInside =>
    refine ⟨readBytes m a n, ?_, readBytes_length m a n, readBytes_getElem m a n⟩
    rw [memRead_eq, if_pos (by omega)]
  case writeOutside =>
    have hlength := List.length_pos_iff.2 hne
    exact memWrite_outOfRange m hlength.ne' (by omega)
  case writeInside =>
    have hlength := List.length_pos_iff.2 hne
    exact ⟨_, memWrite_inRange m (by omega), fun k hk => readByte_writeBytes_at m a bs hk,
      fun b hb => readByte_writeBytes_outside m hb, writeBytes_wf bs (by omega)⟩

/-- Settles O47: with `I` at `PC`, the block store puts `V[0]` and `V[1]` where the fetch reads its two bytes. -/
theorem storeIsSeenByNextFetch : Obligations.StoreIsSeenByNextFetch := by
  intro x s hx hindex hrange
  refine ⟨_, exec_storeRegs_inRange (by rw [hindex]; exact hrange), ?_⟩
  rw [fetch_of_inRange (by simp only; omega), ← hindex]
  exact congrArg some (congrArg₂ wordOfBytes
    (readByte_writeBytes_regsUpTo s.mem _ (r := 0x0) (Nat.zero_le _))
    (readByte_writeBytes_regsUpTo s.mem _ (r := 0x1) hx))

end Sys2Proof.Machine
end

section
/-! PROOFS for the statements on the display block (42_display.md R126, R127; 10_state.md R25): the bits of the snapshot, and
a sprite drawn twice. -/

namespace Sys2Proof.Machine

/-! ## The snapshot (R25, R126) -/

/-- R126: each row takes 64 bits of the snapshot, and the rows do not overlap. -/
theorem snapshotRows_getLsbD (fb : Vector (BitVec 64) 32) (n y x : Nat) (hy : y < 32) (hx : x < 64) :
    (snapshotRows fb n).getLsbD (64 * y + x) = (decide (y < n) && pixel fb y x) := by
  have hbit : 64 * y + x < 2048 := by omega
  induction n with
  | zero => simp [snapshotRows]
  | succ n ih =>
    rw [snapshotRows, BitVec.getLsbD_or, ih, BitVec.getLsbD_shiftLeft, BitVec.getLsbD_setWidth]
    rcases Nat.lt_trichotomy y n with h | rfl | h
    · simp [h, Nat.lt_succ_of_lt h, show 64 * y + x < 64 * n by omega]
    · simp [pixel, hbit, show x < 2048 by omega]
    · have hpast : (fb[n]?.getD 0).getLsbD (64 * y + x - 64 * n) = false := BitVec.getLsbD_of_ge _ _ (by omega)
      rw [hpast, decide_eq_false (Nat.not_lt.2 h.le), decide_eq_false (Nat.not_lt.2 (Nat.succ_le_of_lt h))]
      simp

/-! ## A sprite drawn twice (R127) -/

/-- A row's bits in the columns it is drawn at are its bits. -/
theorem exists_rowBit_iff {ox : Nat} (hox : ox + 7 ≤ 63) (row : Byte) :
    (∃ x, x < 64 ∧ rowBit ox x row = true) ↔ row ≠ 0 := by
  constructor
  · rintro ⟨x, -, hbit⟩ rfl
    simp [rowBit] at hbit
  · intro hrow
    obtain ⟨k, hk, hset⟩ : ∃ k, k < 8 ∧ row.getLsbD k = true := by
      by_contra hclear
      exact hrow (BitVec.eq_of_getLsbD_eq fun k hk => by simpa using fun h => hclear ⟨k, hk, h⟩)
    refine ⟨ox + (7 - k), by omega, ?_⟩
    simp only [rowBit, Bool.and_eq_true, decide_eq_true_eq]
    exact ⟨by omega, by rwa [show 7 - (ox + (7 - k) - ox) = k by omega]⟩

/-- R127: a sprite that is not clipped has a 1-bit in the grid exactly when one of its rows is not 0. -/
theorem exists_spriteBitOf_iff {ox oy : Nat} {rows : List Byte} (hox : ox + 7 ≤ 63) (hoy : oy + rows.length ≤ 32) :
    (∃ y x, y < 32 ∧ x < 64 ∧ spriteBitOf ox oy y x rows = true) ↔ ∃ row ∈ rows, row ≠ 0 := by
  simp only [spriteBitOf, Bool.and_eq_true, decide_eq_true_eq]
  constructor
  · rintro ⟨y, x, -, hx, hy, hbit⟩
    have hk : y - oy < rows.length := by omega
    rw [List.getD_eq_getElem _ _ hk] at hbit
    exact ⟨_, List.getElem_mem hk, (exists_rowBit_iff hox _).1 ⟨x, hx, hbit⟩⟩
  · rintro ⟨row, hmem, hrow⟩
    obtain ⟨k, hk, rfl⟩ := List.getElem_of_mem hmem
    obtain ⟨x, hx, hbit⟩ := (exists_rowBit_iff hox _).2 hrow
    refine ⟨oy + k, x, by omega, hx, by omega, ?_⟩
    rwa [Nat.add_sub_cancel_left, List.getD_eq_getElem _ _ hk]

/-- After a first draw without collision every pixel of the sprite is lit, so the second draw's collision is the sprite's
having a 1-bit in the grid (R124). -/
theorem collision_second_drawSprite {fb : Vector (BitVec 64) 32} {ox oy : Nat} {rows : List Byte}
    (h : (drawSprite fb ox oy rows).collision = false) :
    (drawSprite (drawSprite fb ox oy rows).fb ox oy rows).collision = true ↔
      ∃ y x, y < 32 ∧ x < 64 ∧ spriteBitOf ox oy y x rows = true := by
  rw [collision_drawSprite]
  refine exists_congr fun y => exists_congr fun x => and_congr_right fun hy => and_congr_right fun hx => ?_
  refine ⟨And.left, fun hbit => ⟨hbit, ?_⟩⟩
  have hunlit : pixel fb y x = false := by
    by_contra hlit
    rw [← Bool.not_eq_true, collision_drawSprite] at h
    exact h ⟨y, x, hy, hx, hbit, Bool.eq_true_of_not_eq_false hlit⟩
  rw [pixel_drawSprite _ _ _ _ _ _ hy hx, hunlit, hbit, Bool.false_xor]

/-! ## The obligations -/

/-- Settles O51: all 32 rows are in the snapshot. -/
theorem snapshotShowsEveryPixel : Obligations.SnapshotShowsEveryPixel := by
  intro s y x hy hx
  rw [State.snapshot, snapshotRows_getLsbD _ _ _ _ hy hx, decide_eq_true hy, Bool.true_and]

/-- Settles O50: toggling a pixel by the same bit twice restores it, and the second collision is that of
`collision_second_drawSprite`. -/
theorem drawingTwiceRestoresDisplay : Obligations.DrawingTwiceRestoresDisplay := by
  refine fun fb ox oy rows => ⟨fb_ext fun y x hy hx => ?restored, fun hox hoy hfirst => ?second⟩
  case restored =>
    rw [pixel_drawSprite _ _ _ _ _ _ hy hx, pixel_drawSprite _ _ _ _ _ _ hy hx, Bool.xor_assoc, Bool.xor_self,
      Bool.xor_false]
  case second =>
    rw [Bool.eq_iff_iff, collision_second_drawSprite hfirst, exists_spriteBitOf_iff hox hoy]
    simp only [List.any_eq_true, bne_iff_ne]

end Sys2Proof.Machine
end

section
/-! PROOFS for the statement on the decay of timers (45_timers.md R150 to R153, R157). -/

namespace Sys2Proof.Machine

/-- R151: a timer's remaining time counts down from its duration. -/
theorem Timer.remaining_armTimer (d now e : Nat) : (armTimer d now).remaining (now + e) = d - e := by
  rw [Timer.remaining, armTimer, Nat.add_sub_cancel_left]

/-- R151: time passing never adds to the remaining time. -/
theorem Timer.remaining_antitone (t : Timer) {a b : Nat} (h : a ≤ b) : t.remaining b ≤ t.remaining a :=
  Nat.sub_le_sub_left (Nat.sub_le_sub_right h _) _

/-- R153: armed with `u` units, a timer reads `u` at once. -/
theorem Timer.units_armTimer_now (u now : Nat) {q : Nat} (hq : 1 ≤ q) : (armTimer (u * q) now).units q now = u := by
  have hfull : (armTimer (u * q) now).remaining now = u * q := Timer.remaining_armTimer _ now 0
  rw [Timer.units, hfull, Nat.mul_div_cancel _ hq]

/-- R153: once a unit of time is over, at least one unit has gone. -/
theorem Timer.units_armTimer_le (u now : Nat) {q e : Nat} (he : q ≤ e) :
    (armTimer (u * q) now).units q (now + e) ≤ u - 1 := by
  rw [Timer.units, Timer.remaining_armTimer]
  refine Nat.div_le_of_le_mul ?_
  calc u * q - e
    _ ≤ u * q - q := Nat.sub_le_sub_left he _
    _ = q * (u - 1) := by rw [Nat.mul_sub_one, Nat.mul_comm]

/-- R152: a timer is expired once its duration is over. -/
theorem Timer.expired_armTimer {d e : Nat} (now : Nat) (h : d ≤ e) : (armTimer d now).expired (now + e) = true := by
  rw [Timer.expired, Timer.remaining_armTimer, Nat.sub_eq_zero_of_le h, beq_self_eq_true]

/-- R157: the sound is on while `ST` has time remaining. -/
theorem State.soundActive_iff (s : State) (now : Nat) : s.soundActive now = true ↔ s.st.remaining now ≠ 0 := by
  simp [State.soundActive, Timer.expired]

/-- Settles O41: each clause is a law of the timer block. -/
theorem timersDecay : Obligations.TimersDecay :=
  ⟨fun t _ _ hab => t.remaining_antitone hab,
    fun _ _ now _ hduration => Timer.units_le_255 hduration now,
    fun u _ now _ hq => ⟨Timer.units_armTimer_now u now hq, fun he => Timer.units_armTimer_le u now he,
      fun he => Timer.expired_armTimer now he⟩,
    State.soundActive_iff⟩

end Sys2Proof.Machine
end
